-- ==== Sys2Proof/Word.lean ====
section
/-!
DEFINITION. The word types of the block: the operation descriptor and the frame word.
`spec/30_encoding.md` rules R61 and R74.
-/

namespace Sys2Proof

/-- A 64-bit operation descriptor (R74). -/
abbrev Descriptor := BitVec 64

/-- A 32-bit frame word (R61): bit `i` is the `i`-th data bit on the wire. -/
abbrev FrameWord := BitVec 32

end Sys2Proof
end

