-- ==== Sys2Proof/Syntax.lean ====
section
/-!
DEFINITION. The operations of the block: one constructor per row of `spec/opcode_table.json`
(`spec/30_encoding.md` rule R75), with the operands of rule R76.

An operand that the spec takes apart bit by bit is a bit vector (the address and the command of a frame). An operand that
the spec counts or compares is a natural number (R14), whose range `WellFormed` states.
-/

namespace Sys2Proof

/-- The 13 operations (R75). -/
inductive Instr where
  /-- `RESET` (0x01, agent PWR): R171. -/
  | reset
  /-- `TICK e` (0x02, agent IRENV): one microsecond passes and `e` falling edges occur. R101. -/
  | tick (e : Nat)
  /-- `SEC` (0x03, agent RTC): the seconds counter increments. R126. -/
  | sec
  /-- `SEND address, command` (0x10): R89. -/
  | send (address : BitVec 16) (command : BitVec 8)
  /-- `RECV` (0x11): R120. -/
  | recv
  /-- `LSTAT` (0x12): R114. -/
  | lstat
  /-- `CLASS dt` (0x18): R85. (The name `class` is a word of Lean.) -/
  | classify (dt : Nat)
  /-- `AINIT` (0x20): R130. -/
  | ainit
  /-- `ASERV` (0x21): R136. -/
  | aserv
  /-- `ASET day, secs` (0x22): R142. -/
  | aset (day secs : Nat)
  /-- `AGET day` (0x23): R144. -/
  | aget (day : Nat)
  /-- `TSET v` (0x24): R146. -/
  | tset (v : Nat)
  /-- `TGET` (0x25): R147. -/
  | tget
deriving DecidableEq, Repr

end Sys2Proof
end

