-- ==== Sys2Proof/WellFormed.lean ====
section
/-!
DEFINITION. Which terms of `Instr` are operations: every counted operand fits its field of the descriptor
(`spec/30_encoding.md` rules R74 and R76). Value checks beyond the field width (a day of 7, 86400 seconds) are no part of
this: those descriptors are legal and the operation raises `F_RANGE`.
-/

namespace Sys2Proof

/-- Each operand fits the field that R76 gives it. -/
abbrev WellFormed : Instr → Prop
  | .reset => True
  | .tick e => e < 2 ^ 8
  | .sec => True
  | .send _ _ => True
  | .recv => True
  | .lstat => True
  | .classify dt => dt < 2 ^ 32
  | .ainit => True
  | .aserv => True
  | .aset day secs => day < 2 ^ 3 ∧ secs < 2 ^ 32
  | .aget day => day < 2 ^ 3
  | .tset v => v < 2 ^ 32
  | .tget => True

end Sys2Proof
end

