-- ==== Sys2Proof/Decode.lean ====
section
/-!
DEFINITION. The decoder of the 64-bit descriptor and, after it, the encoder, both written from
`spec/30_encoding.md` rules R74 to R78. There is one length, no prefix form and no mode bit (R78).
-/

namespace Sys2Proof

/-- Why a descriptor is illegal (R77). Every one of them raises `F_ILLEGAL`. -/
inductive DecodeError where
  /-- `d[63:56]` is no opcode of R75. -/
  | unassignedOp
  /-- `d[55:48]` is not 0. -/
  | reservedField
  /-- An operand bit that the operation does not use is not 0 (R76). -/
  | mustBeZero
deriving DecidableEq, Repr

/-- `d[63:56]` (R74). -/
def opField (d : Descriptor) : BitVec 8 := d.extractLsb' 56 8
/-- `d[55:48]` (R74). -/
def rsvField (d : Descriptor) : BitVec 8 := d.extractLsb' 48 8
/-- `d[47:32]` (R74). -/
def aField (d : Descriptor) : BitVec 16 := d.extractLsb' 32 16
/-- `d[31:0]` (R74). -/
def bField (d : Descriptor) : BitVec 32 := d.extractLsb' 0 32

/-- The operation `i`, if the operand bits it does not use are 0. -/
def whenZero (unused : Bool) (i : Instr) : Except DecodeError Instr :=
  if unused then .ok i else .error .mustBeZero

/-- The operation of an opcode and its two operand fields (R75, R76). "`d[31:8]` must be 0" reads: `b` is below `2^8`. -/
def decodeOp (op : Nat) (a : BitVec 16) (b : BitVec 32) : Except DecodeError Instr :=
  match op with
  | 0x01 => whenZero (a == 0 && b == 0) .reset
  | 0x02 => whenZero (a == 0 && decide (b.toNat < 2 ^ 8)) (.tick b.toNat)
  | 0x03 => whenZero (a == 0 && b == 0) .sec
  | 0x10 => whenZero (decide (b.toNat < 2 ^ 8)) (.send a (b.extractLsb' 0 8))
  | 0x11 => whenZero (a == 0 && b == 0) .recv
  | 0x12 => whenZero (a == 0 && b == 0) .lstat
  | 0x18 => whenZero (a == 0) (.classify b.toNat)
  | 0x20 => whenZero (a == 0 && b == 0) .ainit
  | 0x21 => whenZero (a == 0 && b == 0) .aserv
  | 0x22 => whenZero (decide (a.toNat < 2 ^ 3)) (.aset a.toNat b.toNat)
  | 0x23 => whenZero (decide (a.toNat < 2 ^ 3) && b == 0) (.aget a.toNat)
  | 0x24 => whenZero (a == 0) (.tset b.toNat)
  | 0x25 => whenZero (a == 0 && b == 0) .tget
  | _ => .error .unassignedOp

/-- The decoder: every 64-bit word is one operation with its operands, or illegal for a named reason (R77). -/
def decode (d : Descriptor) : Except DecodeError Instr :=
  if rsvField d = 0 then decodeOp (opField d).toNat (aField d) (bField d) else .error .reservedField

/-- A row of `spec/opcode_table.json`: the mnemonic, and a word belongs to the row when its `mask` bits are `bits`. -/
structure OpcodeRow where
  mnemonic : String
  bits : Descriptor
  mask : Descriptor
deriving DecidableEq, Repr

/-- `spec/opcode_table.json`, row by row. The decoder does not read it: the two are held against each other. -/
def opcodeTable : List OpcodeRow :=
  [⟨"RESET", 0x0100000000000000, 0xFFFFFFFFFFFFFFFF⟩,
   ⟨"TICK",  0x0200000000000000, 0xFFFFFFFFFFFFFF00⟩,
   ⟨"SEC",   0x0300000000000000, 0xFFFFFFFFFFFFFFFF⟩,
   ⟨"SEND",  0x1000000000000000, 0xFFFF0000FFFFFF00⟩,
   ⟨"RECV",  0x1100000000000000, 0xFFFFFFFFFFFFFFFF⟩,
   ⟨"LSTAT", 0x1200000000000000, 0xFFFFFFFFFFFFFFFF⟩,
   ⟨"CLASS", 0x1800000000000000, 0xFFFFFFFF00000000⟩,
   ⟨"AINIT", 0x2000000000000000, 0xFFFFFFFFFFFFFFFF⟩,
   ⟨"ASERV", 0x2100000000000000, 0xFFFFFFFFFFFFFFFF⟩,
   ⟨"ASET",  0x2200000000000000, 0xFFFFFFF800000000⟩,
   ⟨"AGET",  0x2300000000000000, 0xFFFFFFF8FFFFFFFF⟩,
   ⟨"TSET",  0x2400000000000000, 0xFFFFFFFF00000000⟩,
   ⟨"TGET",  0x2500000000000000, 0xFFFFFFFFFFFFFFFF⟩]

/-- The word `d` belongs to the row `r`. -/
abbrev OpcodeRow.holds (r : OpcodeRow) (d : Descriptor) : Prop := d &&& r.mask = r.bits

/-- The mnemonic of an operation (R75). -/
def mnemonic : Instr → String
  | .reset => "RESET"
  | .tick _ => "TICK"
  | .sec => "SEC"
  | .send _ _ => "SEND"
  | .recv => "RECV"
  | .lstat => "LSTAT"
  | .classify _ => "CLASS"
  | .ainit => "AINIT"
  | .aserv => "ASERV"
  | .aset _ _ => "ASET"
  | .aget _ => "AGET"
  | .tset _ => "TSET"
  | .tget => "TGET"

/-- The instruction that the decoder reads from a table word of `nbits` bits, every bit above them 0. A descriptor is one
64-bit word, so it is stored as that word and no byte order arises (R48, R78). -/
def decodeTableWord (nbits w : Nat) : Option Instr :=
  let v := w % 2 ^ nbits
  if v < 2 ^ 64 then (decode (BitVec.ofNat 64 v)).toOption else none

/-! ## The encoder -/

/-- A descriptor from its fields, the reserved byte 0 (R74). -/
def descriptor (op : BitVec 8) (a : BitVec 16) (b : BitVec 32) : Descriptor :=
  op ++ (0 : BitVec 8) ++ a ++ b

/-- The opcode of an operation (R75). -/
def opcode : Instr → BitVec 8
  | .reset => 0x01
  | .tick _ => 0x02
  | .sec => 0x03
  | .send _ _ => 0x10
  | .recv => 0x11
  | .lstat => 0x12
  | .classify _ => 0x18
  | .ainit => 0x20
  | .aserv => 0x21
  | .aset _ _ => 0x22
  | .aget _ => 0x23
  | .tset _ => 0x24
  | .tget => 0x25

/-- Operand field `A` of an operation (R75, R76). -/
def operandA : Instr → BitVec 16
  | .send address _ => address
  | .aset day _ => BitVec.ofNat 16 day
  | .aget day => BitVec.ofNat 16 day
  | .reset | .tick _ | .sec | .recv | .lstat | .classify _ | .ainit | .aserv | .tset _ | .tget => 0

/-- Operand field `B` of an operation (R75, R76). -/
def operandB : Instr → BitVec 32
  | .tick e => BitVec.ofNat 32 e
  | .send _ command => command.setWidth 32
  | .classify dt => BitVec.ofNat 32 dt
  | .aset _ secs => BitVec.ofNat 32 secs
  | .tset v => BitVec.ofNat 32 v
  | .reset | .sec | .recv | .lstat | .ainit | .aserv | .aget _ | .tget => 0

/-- The descriptor of an operation (R74 to R76). -/
def encode (i : Instr) : Descriptor := descriptor (opcode i) (operandA i) (operandB i)

end Sys2Proof
end

