-- ==== Sys2Proof/Config.lean ====
section
/-!
DEFINITION. The parameters of the block (`spec/00_scope.md` rule R9, `spec/92_eei_decisions.md` "Parameters a model takes
as arguments") and the free values: what the spec leaves open and no rule may rely on.

Three kinds stand apart here.
* Constants: the values that rule R9 gives as normative (R5). Each is one definition, so that an audit can change the value
  without changing a rule.
* `Params`: the parameters that the model takes as an argument. They are a field of the machine's state that no operation
  writes, so a statement about every state is a statement about every value of them.
* Free values: `opaque` constants without a body. Nothing in Lean can compute one.
-/

namespace Sys2Proof.Config

/-- `QUIET_US`: the quiet-channel timeout, 45 ms. -/
abbrev quietUs : Nat := 45000
/-- `ZERO_US`: the cycle of a zero bit. -/
abbrev zeroUs : Nat := 1100
/-- `ONE_US`: the cycle of a one bit. -/
abbrev oneUs : Nat := 2200
/-- `START_US`: the interval of a start marker. -/
abbrev startUs : Nat := 13500
/-- `TOL_US`: the tolerance of every window. -/
abbrev tolUs : Nat := 150
/-- `LEADER_MARK_US`. -/
abbrev leaderMarkUs : Nat := 9000
/-- `LEADER_SPACE_US`. -/
abbrev leaderSpaceUs : Nat := 4500
/-- `STOP_MARK_US`. -/
abbrev stopMarkUs : Nat := 560
/-- `PLAN_LEN`: the number of intervals of a timing plan, and so of the elements of `PLAN` (R27, R46). -/
abbrev planLen : Nat := 67
/-- `FRAME_BITS`. -/
abbrev frameBits : Nat := 32
/-- `RING_CAP`: the number of entries of the packet ring, and the modulus of its two indices (R29, R117, R120). R29 gives an
index 8 bits, so this is at most 256. -/
abbrev ringCap : Nat := 256
/-- `SENTINEL_ADDR`: the address field of what `RECV` returns from an empty ring. -/
abbrev sentinelAddr : BitVec 16 := 0xFFFF
/-- `DAYS`: the number of slots of the weekly table and of the persisted cells (R36, R37). -/
abbrev days : Nat := 7
/-- `SEC_PER_DAY`. -/
abbrev secPerDay : Nat := 86400
/-- `CELL_W`: the width of a persisted cell in bits (R37). -/
abbrev cellW : Nat := 16
/-- `CARRIER_HZ`: the frequency of the carrier. No rule reads it: the carrier is its envelope (R23, R92; log 17). -/
abbrev carrierHz : Nat := 38000
/-- `TICK_MS`: the period of the application tick, outside the block (R8). No rule reads it (log 17). -/
abbrev tickMs : Nat := 10
/-- The largest legal value of a persisted cell, in minutes since midnight (R37, R72, R172). -/
abbrev cellMax : Nat := 1439

/-- `INIT_CNT`: the seconds counter at first power-up. R9, R174: OPEN, with no default.
DESIGN CHOICE (log 1), unsafe: `State.reset` needs a value, the spec gives none, the model names 0. No meaning reads it. -/
def initCnt : Nat := 0

/-- `INIT_CELLS`: the persisted cells at first power-up. R9, R174: OPEN, with no default.
DESIGN CHOICE (log 1), unsafe: the model names 0 (disabled) for each. No meaning reads it. -/
def initCells : Vector (BitVec cellW) days := Vector.replicate days 0

/-- The parameters a model takes as arguments (`spec/92_eei_decisions.md`, its last table). `CARRIER_DUTY` is among them
there as unused: no rule reads it and it is not held (R92; out of scope by R7(e)). -/
structure Params where
  /-- `TOL_CLOSED`: the windows hold both ends (D4, R82). -/
  tolClosed : Bool
  /-- `MEAS_WRAP`: the modulus of the measurement counter, or none when it is unbounded (D7, R116). -/
  measWrap : Option Nat
  /-- `EDGE_LATCH_TX`: an edge during a transmission is remembered (D11, R96). -/
  edgeLatchTx : Bool
  /-- `ALARM_MATCH_ON_ARM`: arming for the current second fires at once (D19, R127). -/
  alarmMatchOnArm : Bool
  /-- `CNT_W`: the width of the seconds counter in bits (D16). -/
  cntW : Nat
  /-- `BIT_MARK_US`: the mark of a data bit (D5, R64). -/
  bitMarkUs : Nat
  /-- `CELL_UNIT_S`: the seconds that one unit of a cell stands for (D21). -/
  cellUnitS : Nat
deriving DecidableEq, Repr

/-- The defaults of rule R9. -/
def Params.standard : Params where
  tolClosed := true
  measWrap := none
  edgeLatchTx := false
  alarmMatchOnArm := true
  cntW := 32
  bitMarkUs := 560
  cellUnitS := 60

/-- The values of the parameters for which the spec's text makes sense: a data bit has a mark and a space (R64, R67: no
plan entry is 0), and a cell counts minutes (R37, R72). The other parameters may take any value. -/
abbrev Params.wf (p : Params) : Prop :=
  0 < p.bitMarkUs ∧ p.bitMarkUs < zeroUs ∧ p.cellUnitS = 60

/-- FREE VALUE (log 2): bits 31..16 of the sentinel that draw number `n` of the run gives. R121: "a value it may not rely
on (a draw, any 16-bit value)". -/
opaque sentinelHigh : Nat → BitVec 16

/-- FREE VALUE (log 3): what ring entry `i` holds after the `RESET` that makes draw number `n`. R44, R171: the contents are
unspecified. -/
opaque ringNoise : Nat → Nat → BitVec 32

end Sys2Proof.Config
end

