-- ==== Sys2Proof/Machine/State.lean ====
section
/-!
DEFINITION. The state of the block, as plain data (`spec/10_state.md`), its two ways to stop, and its state after reset.

The spec groups the fields into the IR Link record (R21 to R30), the Alarm Scheduler record (R31 to R37) and the model's
bookkeeping (R38, R39); so does this file. Four groups of fields are the MODEL's own and no state of the hardware: the
outputs of the last operation (`Outputs`), the count of draws, the parameters, and what the four agents have yet to issue
(`Inputs`).
-/

namespace Sys2Proof.Machine

/-- The link state (R21). -/
inductive LinkState where
  | receiving
  | transmitting
  | clearToSend
deriving DecidableEq, Repr

/-- The symbol of a measured interval (R68, R81). `repeatMark` is the spec's `REPEAT`. -/
inductive Symbol where
  | zero
  | one
  | start
  | repeatMark
  | noise
deriving DecidableEq, Repr

/-- The event output of `ASERV` (R39, R71, R136). -/
inductive AlarmEvent where
  | none
  | sunrise
  | rollover
deriving DecidableEq, Repr

/-- The four agents (R11). -/
inductive Agent where
  | main
  | irenv
  | rtc
  | pwr
deriving DecidableEq, Repr

/-- The cause of a recorded fault with the information that R152 records. -/
inductive FaultInfo where
  /-- Code 1, `F_ILLEGAL`: the descriptor word. -/
  | illegal (d : Descriptor)
  /-- Code 2, `F_RANGE`: the operand values. -/
  | range (operands : List Nat)
  /-- Code 3, `F_ARM_OVF`: the target. -/
  | armOvf (target : Nat)
  /-- Code 4, `F_CELL_RANGE`: the day index and the cell value. -/
  | cellRange (day value : Nat)
deriving DecidableEq, Repr

/-- What `raise` records (R151): the fault with its information, and the descriptor of the operation. -/
structure FaultRecord where
  info : FaultInfo
  descriptor : Descriptor
deriving DecidableEq, Repr

/-- The IR Link record (R21 to R30). -/
structure IrLink where
  /-- `s.link` (R21). -/
  link : LinkState
  /-- `s.edge_en`, the enable of the reception edge interrupt (R22). -/
  edgeEn : Bool
  /-- `s.carrier_on`, the carrier output at envelope level (R23). -/
  carrierOn : Bool
  /-- `s.tmr_cnt`, µs since the last reload or restart of the shared timer (R24). -/
  tmrCnt : BitVec 16
  /-- `s.tmr_per`, the period of the shared timer in µs (R24). -/
  tmrPer : BitVec 16
  /-- `s.meas_cnt`, µs since the last actioned edge: an unbounded natural number (R25). -/
  measCnt : Nat
  /-- `s.plan_idx`, the interval being played (R26). -/
  planIdx : BitVec 7
  /-- `s.plan`, the timing plan: `PLAN_LEN` signed intervals in two's complement (R27). -/
  plan : Vector (BitVec 16) Config.planLen
  /-- `s.acc_n`, the bit count of the receive accumulator (R28). -/
  accN : BitVec 6
  /-- `s.acc_bits`, the bits of the receive accumulator (R28). -/
  accBits : BitVec 32
  /-- `s.ring`, the packet ring (R29). -/
  ring : Vector FrameWord Config.ringCap
  /-- `s.head`, the producer index (R29). -/
  head : BitVec 8
  /-- `s.tail`, the consumer index (R29). -/
  tail : BitVec 8
  /-- `s.edge_latched` (R30). Where `EDGE_LATCH_TX` is false the spec has no such field, and this one stays false. -/
  edgeLatched : Bool
deriving DecidableEq, Repr

/-- The Alarm Scheduler record (R31 to R37). -/
structure Scheduler where
  /-- `s.rtc_cnt`, the seconds counter, `CNT_W` bits (R31). -/
  rtcCnt : Nat
  /-- `s.alm_tgt`, the target of the hardware alarm, `CNT_W` bits (R32). -/
  almTgt : Nat
  /-- `s.alm_en`, the hardware alarm is armed (R32). -/
  almEn : Bool
  /-- `s.alm_pend`, the pending flag that the alarm interrupt posts (R33). -/
  almPend : Bool
  /-- `s.is_sunrise`, which kind of alarm the last arm call configured (R34). -/
  isSunrise : Bool
  /-- `s.cur_day`, the scheduler's running day count (R35). -/
  curDay : BitVec 32
  /-- `s.table`, the weekly alarm table in seconds since midnight (R36). -/
  table : Vector (BitVec 17) Config.days
  /-- `s.cell`, the battery-backed cells in minutes since midnight (R37). -/
  cell : Vector (BitVec Config.cellW) Config.days
deriving DecidableEq, Repr

/-- The MODEL's own: what the last operation that stepped put on its result channel and its event output (R39). The spec
calls these observations; the model holds them so that a statement can speak of them (log 4). -/
structure Outputs where
  /-- `return v`: the value as a number, or none where the operation returns nothing. -/
  result : Option Nat
  /-- The event output of `ASERV`; `none` for every other operation. -/
  event : AlarmEvent
deriving DecidableEq, Repr

/-- The MODEL's own: what each agent has yet to issue, oldest first, and whose turn is next (R11, R13, R160; log 5).
No operation reads or writes it; `step` takes the next descriptor from it. Every interleaving of the agents is a value of
`schedule`, so a statement about every state is a statement about every interleaving. -/
structure Inputs where
  /-- `MAIN`'s program. -/
  main : List Descriptor
  /-- The operations of the IR environment. -/
  irenv : List Descriptor
  /-- The operations of the seconds counter. -/
  rtc : List Descriptor
  /-- The operations of power and reset. -/
  pwr : List Descriptor
  /-- The agents' turns. -/
  schedule : List Agent
deriving DecidableEq, Repr

/-- The state of the block. -/
structure State where
  /-- The IR Link record (R21 to R30). -/
  ir : IrLink
  /-- The Alarm Scheduler record (R31 to R37). -/
  alarm : Scheduler
  /-- `s.fault`, the sticky fault record (R38). -/
  fault : Option FaultRecord
  /-- The outputs of the last operation (R39). -/
  out : Outputs
  /-- The MODEL's own: how many free values the run has drawn (log 2, log 3). -/
  draws : Nat
  /-- The MODEL's own: the parameters of R9, which no operation writes. -/
  params : Config.Params
  /-- The MODEL's own: what the agents have yet to issue. -/
  inputs : Inputs
deriving DecidableEq, Repr

/-- Why the machine stops with a fault. -/
inductive Fault where
  /-- Raised by `step` and by every operation in a state whose fault record is set: R151, "no operation of any agent has a
  step, `RESET` included". The record itself says which fault it was. Safe: the spec's machine has no step here either. -/
  | stuck
deriving DecidableEq, Repr

/-- Why the machine refuses to go on. -/
inductive Refusal where
  /-- Raised by an arm of `exec` whose instruction has no meaning yet: none. Safe. -/
  | notModelled (mnemonic : String)
  /-- Raised by `step` where the inputs have an agent issue an operation of another agent (R11: "`RESET` belongs to `PWR`
  only", R164). The spec has no such step. Safe: a run of the spec's machine never issues one. -/
  | foreignAgent
deriving DecidableEq, Repr

/-- The reset values of the IR Link record (R44, R171). The ring's contents are unspecified by the spec: DESIGN CHOICE
(log 3), unsafe, zeros here; the operation `RESET` itself leaves free values there. -/
def IrLink.reset : IrLink where
  link := .receiving
  edgeEn := true
  carrierOn := false
  tmrCnt := 0
  tmrPer := BitVec.ofNat 16 Config.quietUs
  measCnt := 0
  planIdx := 0
  plan := Vector.replicate Config.planLen 0
  accN := 0
  accBits := 0
  ring := Vector.replicate Config.ringCap 0
  head := 0
  tail := 0
  edgeLatched := false

/-- The machine right after the first `RESET` (R44, R171, R172) with the retained state that log 1 names: the counter and
every cell 0. The boot has then loaded an empty table and armed the alarm for the first midnight (R130, R133; the spec's
vectors V-AI6 and P1 step 1). Nothing is issued yet. -/
def State.reset : State where
  ir := IrLink.reset
  alarm :=
    { rtcCnt := Config.initCnt
      almTgt := Config.secPerDay
      almEn := true
      almPend := false
      isSunrise := false
      curDay := 0
      table := Vector.replicate Config.days 0
      cell := Config.initCells }
  fault := none
  out := { result := none, event := .none }
  draws := 0
  params := Config.Params.standard
  inputs := { main := [], irenv := [], rtc := [], pwr := [], schedule := [] }

end Sys2Proof.Machine
end

