-- ==== Sys2Proof/Machine/Operands.lean ====
section
/-!
DEFINITION. How the operations read their operands and the elements of the storage spaces: frame words, timing-plan
intervals, day arithmetic, and the reads and writes of `PLAN`, `RING`, `TABLE` and `CELL`
(`spec/20_memory.md` rules R46, R47; `spec/30_encoding.md` rules R61 to R73).

The block has no byte-addressed memory (R48): every access is one whole element by its index. Every index an operation
makes is inside its space (R46, R51). Outside it a read of these definitions gives 0 and a write changes nothing, which no
operation meets.
-/

namespace Sys2Proof.Machine

/-! ## Frame words and intervals -/

/-- The frame word of a packet to send: `command_inverse ++ command ++ address` with the complement of the command
(R61, R62). -/
def frameWord (address : BitVec 16) (command : BitVec 8) : FrameWord :=
  (~~~command) ++ command ++ address

/-- `cycle(b)`: the whole cycle of a data bit in µs (R64). -/
def bitCycle (b : Bool) : Nat := if b then Config.oneUs else Config.zeroUs

/-- Entry `i` of the timing plan of frame word `w`, signed: positive is carrier on (R17, R67, R88). -/
def planEntry (p : Config.Params) (w : FrameWord) (i : Nat) : Int :=
  if i = 0 then Config.leaderMarkUs
  else if i = 1 then -Config.leaderSpaceUs
  else if i = Config.planLen - 1 then Config.stopMarkUs
  else if i % 2 = 0 then p.bitMarkUs
  else -((bitCycle (w.getLsbD ((i - 3) / 2)) : Int) - p.bitMarkUs)

/-- `|v|` of a plan entry: the length of the interval in µs (R17, R94). -/
def intervalUs (v : BitVec 16) : BitVec 16 := BitVec.ofNat 16 v.toInt.natAbs

/-! ## Elements of the storage spaces -/

/-- `MemRead(PLAN, i, 16)`. -/
def readPlan (plan : Vector (BitVec 16) Config.planLen) (i : Nat) : BitVec 16 := plan[i]?.getD 0

/-- `MemRead(RING, i, 32)`. -/
def readRing (ring : Vector FrameWord Config.ringCap) (i : Nat) : FrameWord := ring[i]?.getD 0

/-- `MemWrite(RING, i, 32, w)`. -/
def writeRing (ring : Vector FrameWord Config.ringCap) (i : Nat) (w : FrameWord) :
    Vector FrameWord Config.ringCap := ring.setIfInBounds i w

/-- `MemRead(TABLE, i, 17)`. -/
def readTable (table : Vector (BitVec 17) Config.days) (i : Nat) : BitVec 17 := table[i]?.getD 0

/-- `MemWrite(TABLE, i, 17, v)`. -/
def writeTable (table : Vector (BitVec 17) Config.days) (i : Nat) (v : BitVec 17) : Vector (BitVec 17) Config.days :=
  table.setIfInBounds i v

/-- `MemRead(CELL, i, CELL_W)`. -/
def readCell (cell : Vector (BitVec Config.cellW) Config.days) (i : Nat) : BitVec Config.cellW := cell[i]?.getD 0

/-- `MemWrite(CELL, i, CELL_W, v)`. -/
def writeCell (cell : Vector (BitVec Config.cellW) Config.days) (i : Nat) (v : BitVec Config.cellW) :
    Vector (BitVec Config.cellW) Config.days := cell.setIfInBounds i v

/-! ## Ring indices (R29) -/

/-- `(i + 1) mod RING_CAP`: the ring index after `i` (R117, R120). -/
def ringNext (i : BitVec 8) : BitVec 8 := BitVec.ofNat 8 ((i.toNat + 1) % Config.ringCap)

/-! ## Day arithmetic (R73, R129) -/

/-- `day(c)`. -/
abbrev dayOf (c : Nat) : Nat := c / Config.secPerDay

/-- `start_of_day(n)`. -/
abbrev startOfDay (n : Nat) : Nat := n * Config.secPerDay

/-- `dow(n)`: the day of the week, 0 = Monday. -/
abbrev dow (n : Nat) : Nat := n % Config.days

end Sys2Proof.Machine
end

