-- ==== Sys2Proof/Machine/Flags.lean ====
section
/-!
DEFINITION. The computed conditions of the block and the codes of its results. The block has no arithmetic condition codes
(R41): its status flags are fields of State, and the conditions below are not stored.
-/

namespace Sys2Proof.Machine

/-- `s.head = s.tail`: the ring is empty (R29, R41). -/
def ringEmpty (l : IrLink) : Bool := l.head == l.tail

/-- `(s.head + 1) mod RING_CAP = s.tail`: the ring is full (R29, R41, R117). -/
def ringFull (l : IrLink) : Bool := ringNext l.head == l.tail

/-- The interval `v` of the plan is a mark: carrier on (R17, R94). -/
def isMark (v : BitVec 16) : Bool := decide (0 < v.toInt)

/-- `s.alm_en = 1 and s.rtc_cnt = s.alm_tgt`: the alarm matches (R126). -/
def alarmMatches (a : Scheduler) : Bool := a.almEn && a.rtcCnt == a.almTgt

/-- The code of a symbol, three bits (R68). -/
def Symbol.code : Symbol → BitVec 3
  | .zero => 0
  | .one => 1
  | .start => 2
  | .repeatMark => 3
  | .noise => 4

/-- The code of a link state, two bits (R70). -/
def LinkState.code : LinkState → BitVec 2
  | .receiving => 0
  | .transmitting => 1
  | .clearToSend => 2

/-- The code of an `ASERV` result, two bits (R71). -/
def AlarmEvent.code : AlarmEvent → BitVec 2
  | .none => 0
  | .sunrise => 1
  | .rollover => 2

/-- The code of a fault (R152). -/
def FaultInfo.code : FaultInfo → Nat
  | .illegal _ => 1
  | .range _ => 2
  | .armOvf _ => 3
  | .cellRange _ _ => 4

/-- `SEND` is held: the link is not `ClearToSend` (R89). -/
def sendHeld (s : State) : Bool := s.ir.link != .clearToSend

/-- The operation `i` is not enabled in `s`. Only `SEND` can be held (R154). -/
def held (i : Instr) (s : State) : Bool :=
  match i with
  | .send _ _ => sendHeld s
  | .reset | .tick _ | .sec | .recv | .lstat | .classify _ | .ainit | .aserv | .aset _ _ | .aget _ | .tset _ | .tget => false

end Sys2Proof.Machine
end

