-- ==== Sys2Proof/Machine/Ops.lean ====
section
/-!
DEFINITION. The operations that the meanings share: delivering outputs, recording a fault, holding, and running the body of
an operation as one atomic step (`spec/60_exceptions.md` rules R151 to R154, R161).

Taking an exception, on this hardware, is `raise` (R151). There is no return from it: the record is never cleared (R38), a
handler saves nothing and returns nowhere (R162, R163).
-/

namespace Sys2Proof.Machine

/-- What an operation puts on its result channel and its event output (R39). -/
def deliver (s : State) (result : Option Nat) (event : AlarmEvent) : State :=
  { s with out := { result := result, event := event } }

/-- `raise F(info)`: the fault is recorded with the descriptor of the operation, in the state before the operation (R151). -/
def raise (s : State) (info : FaultInfo) (d : Descriptor) : State :=
  { s with fault := some { info := info, descriptor := d } }

/-- What may step: nothing, once a fault is recorded (R151, U19). -/
def unlessFaulted (s : State) (o : Host.Outcome State Fault Refusal) : Host.Outcome State Fault Refusal :=
  if s.fault.isSome then .fault .stuck else o

/-- `hold`: the operation does not step; nothing changes and another agent may step (R13, R15, R89, R154). -/
def hold (s : State) : Host.Outcome State Fault Refusal := unlessFaulted s (.next s)

/-- The operation `i` with body `body` as one atomic step (R52). The body starts with nothing delivered. Where it raises,
every write of it is discarded, and the outputs are as before the operation (R151). -/
def operate (i : Instr) (s : State) (body : State → Except FaultInfo State) : Host.Outcome State Fault Refusal :=
  unlessFaulted s <|
    match body (deliver s none .none) with
    | .ok t => .next t
    | .error info => .next (raise s info (encode i))

/-- An operation that returns `v` and writes nothing else. -/
def answer (s : State) (v : Nat) : Except FaultInfo State := .ok (deliver s (some v) .none)

end Sys2Proof.Machine
end

