-- ==== Sys2Proof/Machine/Agents.lean ====
section
/-!
DEFINITION. The four agents: which operation belongs to which (R11, R75), and how the next descriptor is taken from what
they have yet to issue (R13, R160; log 5).
-/

namespace Sys2Proof.Machine

/-- The agent of an operation (R11, R75). -/
def agentOf : Instr → Agent
  | .reset => .pwr
  | .tick _ => .irenv
  | .sec => .rtc
  | .send _ _ | .recv | .lstat | .classify _ | .ainit | .aserv | .aset _ _ | .aget _ | .tset _ | .tget => .main

/-- What agent `a` has yet to issue. -/
def queue (q : Inputs) : Agent → List Descriptor
  | .main => q.main
  | .irenv => q.irenv
  | .rtc => q.rtc
  | .pwr => q.pwr

/-- `q` with `ds` for what agent `a` has yet to issue. -/
def setQueue (q : Inputs) (a : Agent) (ds : List Descriptor) : Inputs :=
  match a with
  | .main => { q with main := ds }
  | .irenv => { q with irenv := ds }
  | .rtc => { q with rtc := ds }
  | .pwr => { q with pwr := ds }

/-- What the next turn of the schedule offers: nothing, or a descriptor of an agent. -/
inductive Turn where
  /-- No turn is left, or the agent whose turn it is has nothing to issue: nothing happens. -/
  | idle
  /-- Agent `a` is at descriptor `d`. -/
  | issue (a : Agent) (d : Descriptor)
deriving DecidableEq, Repr

/-- The next turn of the schedule. -/
def nextTurn (s : State) : Turn :=
  match s.inputs.schedule with
  | [] => .idle
  | a :: _ =>
    match queue s.inputs a with
    | [] => .idle
    | d :: _ => .issue a d

/-- `s` after an idle turn. -/
def afterIdle (s : State) : State :=
  { s with inputs := { s.inputs with schedule := s.inputs.schedule.tail } }

/-- `s` after a turn of agent `a`: the turn is used up, and the descriptor at the head of `a`'s queue has left it, unless
the operation is held and so stays at the head (R13). -/
def afterTurn (s : State) (a : Agent) (stays : Bool) : State :=
  { s with
    inputs :=
      setQueue { s.inputs with schedule := s.inputs.schedule.tail } a
        (if stays then queue s.inputs a else (queue s.inputs a).tail) }

/-- `s` with descriptor `d` first at agent `a`, whose turn comes next. -/
def issueNext (s : State) (a : Agent) (d : Descriptor) : State :=
  { s with
    inputs := setQueue { s.inputs with schedule := a :: s.inputs.schedule } a (d :: queue s.inputs a) }

end Sys2Proof.Machine
end

