-- ==== Sys2Proof/Machine/Alarm.lean ====
section
/-!
DEFINITION. The weekly alarm scheduler: `SEC`, `AINIT`, `ASERV`, `ASET`, `AGET`, `TSET`, `TGET`
(`spec/44_alarm_scheduler.md`).
-/

namespace Sys2Proof.Machine

/-- The alarm fires: the alarm interrupt sets a flag only, and the match disarms (R126, R127). -/
def fire (a : Scheduler) : Scheduler := { a with almPend := true, almEn := false }

/-- `SEC()` on the Alarm Scheduler record (R126). -/
def second (p : Config.Params) (a : Scheduler) : Scheduler :=
  let a := { a with rtcCnt := (a.rtcCnt + 1) % 2 ^ p.cntW }
  if alarmMatches a then fire a else a

/-- `ARM(T)` (R127). -/
def arm (p : Config.Params) (target : Nat) (a : Scheduler) : Except FaultInfo Scheduler :=
  if 2 ^ p.cntW ≤ target then .error (.armOvf target)
  else
    let a := { a with almTgt := target, almEn := true }
    .ok (if p.alarmMatchOnArm && a.rtcCnt == target then fire a else a)

/-- `AINIT()` on the Alarm Scheduler record (R130 to R133). -/
def initAlarm (p : Config.Params) (a : Scheduler) : Except FaultInfo Scheduler :=
  let d := dayOf a.rtcCnt
  let v := (readTable a.table (dow d)).toNat
  let b := { a with curDay := BitVec.ofNat 32 d, almPend := false, almEn := false }
  if v ≠ 0 ∧ a.rtcCnt ≤ startOfDay d + v then arm p (startOfDay d + v) { b with isSunrise := true }
  else arm p (startOfDay (d + 1)) { b with isSunrise := false }

/-- `SUNRISE_FIRING()` (R137). -/
def sunriseFiring (p : Config.Params) (a : Scheduler) : Except FaultInfo Scheduler :=
  arm p (startOfDay (a.curDay.toNat + 1)) { a with isSunrise := false }

/-- `ROLLOVER_FIRING()` (R138). It does not test whether the new day's alarm has elapsed (R139). -/
def rolloverFiring (p : Config.Params) (a : Scheduler) : Except FaultInfo Scheduler :=
  let a := { a with curDay := a.curDay + 1 }
  let n := a.curDay.toNat
  let v := (readTable a.table (dow n)).toNat
  if v ≠ 0 then arm p (startOfDay n + v) { a with isSunrise := true }
  else arm p (startOfDay (n + 1)) { a with isSunrise := false }

/-- `ASERV()` on the Alarm Scheduler record, with its event (R136). -/
def serve (p : Config.Params) (a : Scheduler) : Except FaultInfo (AlarmEvent × Scheduler) :=
  if a.almPend then
    let b := { a with almPend := false }
    if a.isSunrise then (sunriseFiring p b).map fun b => (.sunrise, b)
    else (rolloverFiring p b).map fun b => (.rollover, b)
  else .ok (.none, a)

/-- `SEC` (R126). -/
def execSec (s : State) : Host.Outcome State Fault Refusal :=
  operate .sec s fun s => .ok { s with alarm := second s.params s.alarm }

/-- `AINIT` (R130). -/
def execAinit (s : State) : Host.Outcome State Fault Refusal :=
  operate .ainit s fun s => (initAlarm s.params s.alarm).map fun a => { s with alarm := a }

/-- `ASERV` (R136): the event is both its result and its event output. -/
def execAserv (s : State) : Host.Outcome State Fault Refusal :=
  operate .aserv s fun s =>
    (serve s.params s.alarm).map fun r => deliver { s with alarm := r.2 } (some r.1.code.toNat) r.1

/-- `ASET day, secs` (R142): the table in seconds, the cell in units of `CELL_UNIT_S` (R143). It does not re-arm (R145). -/
def execAset (day secs : Nat) (s : State) : Host.Outcome State Fault Refusal :=
  operate (.aset day secs) s fun s =>
    if Config.days ≤ day ∨ Config.secPerDay ≤ secs then .error (.range [day, secs])
    else
      .ok { s with
        alarm := { s.alarm with
          table := writeTable s.alarm.table day (BitVec.ofNat 17 secs)
          cell := writeCell s.alarm.cell day (BitVec.ofNat Config.cellW (secs / s.params.cellUnitS)) } }

/-- `AGET day` (R144). -/
def execAget (day : Nat) (s : State) : Host.Outcome State Fault Refusal :=
  operate (.aget day) s fun s =>
    if Config.days ≤ day then .error (.range [day]) else answer s (readTable s.alarm.table day).toNat

/-- `TSET v` (R146): the counter only; no match test and no re-arm. -/
def execTset (v : Nat) (s : State) : Host.Outcome State Fault Refusal :=
  operate (.tset v) s fun s =>
    if 2 ^ s.params.cntW ≤ v then .error (.range [v]) else .ok { s with alarm := { s.alarm with rtcCnt := v } }

/-- `TGET` (R147). -/
def execTget (s : State) : Host.Outcome State Fault Refusal :=
  operate .tget s fun s => answer s s.alarm.rtcCnt

end Sys2Proof.Machine
end

