-- ==== Sys2Proof/Machine/Reset.lean ====
section
/-!
DEFINITION. `RESET` and the boot sequence inside it (`spec/70_reset_and_hazards.md` rules R171, R172).
-/

namespace Sys2Proof.Machine

/-- The IR Link record as `RESET` leaves it (R44, R171). The ring's contents are unspecified: each entry is a free value
(log 3). -/
def resetLink (draw : Nat) : IrLink :=
  { IrLink.reset with ring := Vector.ofFn fun i => Config.ringNoise draw i.val }

/-- The Alarm Scheduler record before the boot: its volatile fields at their reset values, the counter and the cells
retained (R45, R171). The table is written by the boot that follows. -/
def resetScheduler (a : Scheduler) : Scheduler :=
  { a with almEn := false, almTgt := 0, almPend := false, isSunrise := false, curDay := 0 }

/-- The first cell that holds more than 1439 minutes, in index order (R172). -/
def badCell (a : Scheduler) : Option Nat :=
  (List.range Config.days).find? fun i => decide (Config.cellMax < (readCell a.cell i).toNat)

/-- The boot load: `s.table[i] <- s.cell[i] * CELL_UNIT_S` for every day (R172). -/
def loadTable (p : Config.Params) (a : Scheduler) : Scheduler :=
  { a with table := Vector.ofFn fun i => BitVec.ofNat 17 ((readCell a.cell i.val).toNat * p.cellUnitS) }

/-- `BOOT()` (R172). -/
def boot (p : Config.Params) (a : Scheduler) : Except FaultInfo Scheduler :=
  match badCell a with
  | some i => .error (.cellRange i (readCell a.cell i).toNat)
  | none => initAlarm p (loadTable p a)

/-- `RESET` (R171). What the agents have yet to issue is no state of the block and stays (log 5). -/
def execReset (s : State) : Host.Outcome State Fault Refusal :=
  operate .reset s fun s =>
    (boot s.params (resetScheduler s.alarm)).map fun a =>
      { s with ir := resetLink s.draws, alarm := a, draws := s.draws + 1 }

end Sys2Proof.Machine
end

