-- ==== Sys2Proof/Machine/Classifier.lean ====
section
/-!
DEFINITION. The Timing Classifier and `CLASS` (`spec/40_classifier.md`).
-/

namespace Sys2Proof.Machine

/-- `in(c)` of R83: `dt` is in the window around `c`. -/
def inWindow (p : Config.Params) (c dt : Nat) : Bool :=
  if p.tolClosed then decide (c - Config.tolUs ≤ dt) && decide (dt ≤ c + Config.tolUs)
  else decide (c - Config.tolUs < dt) && decide (dt < c + Config.tolUs)

/-- `CLASSIFY(dt)` (R82, R83), a pure function of the interval. -/
def classifySymbol (p : Config.Params) (dt : Nat) : Symbol :=
  if dt = 0 then .repeatMark
  else if inWindow p Config.zeroUs dt then .zero
  else if inWindow p Config.oneUs dt then .one
  else if inWindow p Config.startUs dt then .start
  else .noise

/-- `CLASS dt` (R85): the code of the symbol of `dt`; it writes no state. -/
def execClassify (dt : Nat) (s : State) : Host.Outcome State Fault Refusal :=
  operate (.classify dt) s fun s => answer s (classifySymbol s.params dt).code.toNat

end Sys2Proof.Machine
end

