-- ==== Sys2Proof/Machine/Receive.lean ====
section
/-!
DEFINITION. The receive path and the packet ring: the edge handler, the accumulator, `PUSH`, and the operations `LSTAT` and
`RECV` (`spec/42_ir_receive.md`, `spec/43_packet_queue.md`).
-/

namespace Sys2Proof.Machine

/-- `PUSH(w)` (R117): a full ring drops the packet. -/
def push (l : IrLink) (w : FrameWord) : IrLink :=
  if ringFull l then l else { l with ring := writeRing l.ring l.head.toNat w, head := ringNext l.head }

/-- `s.acc_bits[n] <- b` (R110). -/
def setBit (bits : BitVec 32) (n : BitVec 6) (b : Bool) : BitVec 32 :=
  (bits &&& ~~~(1#32 <<< n.toNat)) ||| ((BitVec.ofBool b).setWidth 32 <<< n.toNat)

/-- The accumulator reset of R111. -/
def clearAccumulator (l : IrLink) : IrLink := { l with accN := 0, accBits := 0 }

/-- `ACCUMULATE(sym)` (R110), with `b` the data bit of the symbol. -/
def accumulate (l : IrLink) (b : Bool) : IrLink :=
  let l := { l with accBits := setBit l.accBits l.accN b, accN := l.accN + 1 }
  if l.accN.toNat = Config.frameBits then clearAccumulator (push l l.accBits) else l

/-- What a symbol does to the accumulator (R84, R104). -/
def receiveSymbol (l : IrLink) : Symbol → IrLink
  | .zero => accumulate l false
  | .one => accumulate l true
  | .start | .repeatMark | .noise => clearAccumulator l

/-- `EDGE()` (R104): the edge handler. It forces the link to `Receiving` before it classifies (R105). -/
def edge (p : Config.Params) (l : IrLink) : IrLink :=
  receiveSymbol { l with measCnt := 0, tmrCnt := 0, link := .receiving } (classifySymbol p l.measCnt)

/-- One falling edge on the IR input (R101): actioned while reception is enabled; else remembered where `EDGE_LATCH_TX`
says so, and lost otherwise (R96, R103). -/
def edgeInput (p : Config.Params) (l : IrLink) : IrLink :=
  if l.edgeEn then edge p l
  else if p.edgeLatchTx then { l with edgeLatched := true }
  else l

/-- `repeat e` of R101: `e` falling edges, one after the other. -/
def edges (p : Config.Params) : Nat → IrLink → IrLink
  | 0, l => l
  | e + 1, l => edges p e (edgeInput p l)

/-- `LSTAT` (R114): the code of the link state. -/
def execLstat (s : State) : Host.Outcome State Fault Refusal :=
  operate .lstat s fun s => answer s s.ir.link.code.toNat

/-- What `RECV` returns from an empty ring (R69, R121): the sentinel address, under 16 bits that are a draw. -/
def sentinel (s : State) : FrameWord := Config.sentinelHigh s.draws ++ Config.sentinelAddr

/-- `RECV` (R120): the oldest packet, which leaves the ring; or, from an empty ring, the sentinel. A draw is used up by the
sentinel and by nothing else here. -/
def execRecv (s : State) : Host.Outcome State Fault Refusal :=
  operate .recv s fun s =>
    if ringEmpty s.ir then answer { s with draws := s.draws + 1 } (sentinel s).toNat
    else answer { s with ir := { s.ir with tail := ringNext s.ir.tail } } (readRing s.ir.ring s.ir.tail.toNat).toNat

end Sys2Proof.Machine
end

