-- ==== Sys2Proof/Machine/Transmit.lean ====
section
/-!
DEFINITION. The transmit path: the plan builder, `SEND` and the interval player (`spec/41_ir_transmit.md`).
-/

namespace Sys2Proof.Machine

/-- `BUILD_PLAN(w)` (R88): all `PLAN_LEN` entries, each as a 16-bit two's-complement number (R27). -/
def buildPlan (p : Config.Params) (w : FrameWord) : Vector (BitVec 16) Config.planLen :=
  Vector.ofFn fun i => BitVec.ofInt 16 (planEntry p w i.val)

/-- The carrier and the timer's period for the interval that `s.plan_idx` selects (R89, R94). -/
def playInterval (l : IrLink) : IrLink :=
  { l with carrierOn := isMark (readPlan l.plan l.planIdx.toNat), tmrPer := intervalUs (readPlan l.plan l.planIdx.toNat) }

/-- The writes of `SEND` (R89) for frame word `w`: the first interval starts in the step itself. -/
def startTransmission (p : Config.Params) (w : FrameWord) (l : IrLink) : IrLink :=
  playInterval
    { l with plan := buildPlan p w, edgeEn := false, link := .transmitting, planIdx := 0, tmrCnt := 0 }

/-- `SEND address, command` (R89): held until the link is `ClearToSend`. -/
def execSend (address : BitVec 16) (command : BitVec 8) (s : State) : Host.Outcome State Fault Refusal :=
  if sendHeld s then hold s
  else
    operate (.send address command) s fun s =>
      .ok { s with ir := startTransmission s.params (frameWord address command) s.ir }

/-- The writes of `PLAYER_DONE()` before the latched edge (R95). -/
def endTransmission (l : IrLink) : IrLink :=
  { l with
    carrierOn := false
    link := .receiving
    tmrPer := BitVec.ofNat 16 Config.quietUs
    tmrCnt := 0
    edgeEn := true
    planIdx := 0 }

/-- `PLAYER_DONE()` (R95) with `LATCHED_EDGE()` (R96). -/
def playerDone (p : Config.Params) (l : IrLink) : IrLink :=
  let l := endTransmission l
  if p.edgeLatchTx && l.edgeLatched then edge p { l with edgeLatched := false } else l

/-- `PLAYER()` (R94): the next interval, or the end of the plan. -/
def player (p : Config.Params) (l : IrLink) : IrLink :=
  let l := { l with planIdx := l.planIdx + 1 }
  if l.planIdx.toNat < Config.planLen then playInterval l else playerDone p l

end Sys2Proof.Machine
end

