-- ==== Sys2Proof/Machine/Tick.lean ====
section
/-!
DEFINITION. The time step: the shared timer's expiry and `TICK` (`spec/42_ir_receive.md` rules R101 to R109).
-/

namespace Sys2Proof.Machine

/-- `EXPIRE()` (R107). -/
def expire (p : Config.Params) (l : IrLink) : IrLink :=
  match l.link with
  | .receiving => { l with link := .clearToSend }
  | .clearToSend => l
  | .transmitting => player p l

/-- One more µs of the measurement counter, modulo `MEAS_WRAP` where that is set (R25, R116). -/
def countMeasure (p : Config.Params) (n : Nat) : Nat :=
  match p.measWrap with
  | none => n + 1
  | some m => (n + 1) % m

/-- The two counters of R101 one µs on. -/
def passMicrosecond (p : Config.Params) (l : IrLink) : IrLink :=
  { l with measCnt := countMeasure p l.measCnt, tmrCnt := l.tmrCnt + 1 }

/-- The expiry test of R101 and R106. -/
def checkExpiry (p : Config.Params) (l : IrLink) : IrLink :=
  if l.tmrCnt = l.tmrPer then expire p { l with tmrCnt := 0 } else l

/-- `TICK(e)` on the IR Link record (R101): one µs passes, then the edges, then the expiry test (R102, R159). -/
def tick (p : Config.Params) (e : Nat) (l : IrLink) : IrLink :=
  checkExpiry p (edges p e (passMicrosecond p l))

/-- `TICK e` (R101). -/
def execTick (e : Nat) (s : State) : Host.Outcome State Fault Refusal :=
  operate (.tick e) s fun s => .ok { s with ir := tick s.params e s.ir }

end Sys2Proof.Machine
end

