-- ==== Sys2Proof/Machine/Dispatch.lean ====
section
/-!
DEFINITION. One arm per operation: its meaning, called once.
-/

namespace Sys2Proof.Machine

/-- The meaning of an operation in a state. -/
def exec (i : Instr) (s : State) : Host.Outcome State Fault Refusal :=
  match i with
  | .reset => Sys2Proof.Machine.execReset s
  | .tick e => Sys2Proof.Machine.execTick e s
  | .sec => Sys2Proof.Machine.execSec s
  | .send address command => Sys2Proof.Machine.execSend address command s
  | .recv => Sys2Proof.Machine.execRecv s
  | .lstat => Sys2Proof.Machine.execLstat s
  | .classify dt => Sys2Proof.Machine.execClassify dt s
  | .ainit => Sys2Proof.Machine.execAinit s
  | .aserv => Sys2Proof.Machine.execAserv s
  | .aset day secs => Sys2Proof.Machine.execAset day secs s
  | .aget day => Sys2Proof.Machine.execAget day s
  | .tset v => Sys2Proof.Machine.execTset v s
  | .tget => Sys2Proof.Machine.execTget s

end Sys2Proof.Machine
end

