-- ==== Sys2Proof/Machine/Step.lean ====
section
/-!
DEFINITION. One step of the block: one operation of one agent (R11, R52), and where an instruction is placed so that the
next step runs it.
-/

namespace Sys2Proof.Machine

/-- One step. Once a fault is recorded there is none (R151). An illegal descriptor raises `F_ILLEGAL` (R77). A legal one runs
as the operation it stands for; a held one stays at the head of its agent's queue (R13). -/
def step (s : State) : Host.Outcome State Fault Refusal :=
  unlessFaulted s <|
    match nextTurn s with
    | .idle => .next (afterIdle s)
    | .issue a d =>
      match decode d with
      | .error _ => .next (raise (afterTurn s a false) (.illegal d) d)
      | .ok i => if agentOf i = a then exec i (afterTurn s a (held i s)) else .refused .foreignAgent

/-- `s` with the descriptor of `nbits` bits `w` as the next one issued: at the head of the queue of the agent it belongs to
(an illegal one: at `MAIN`'s), that agent's turn being next (log 6). -/
def State.withFetchWord (s : State) (nbits w : Nat) : State :=
  let d := BitVec.ofNat 64 (w % 2 ^ nbits)
  match decode d with
  | .ok i => issueNext s (agentOf i) d
  | .error _ => issueNext s .main d

end Sys2Proof.Machine
end

