-- ==== Sys2Proof/Machine/Assembly.lean ====
section
/-!
DEFINITION. The assembly syntax of the operations and the pseudo-operations (`spec/30_encoding.md` rules R79, R80). The
pseudo-operations are assembler macros: each is a list of operations, which run as separate steps of their agent.
-/

namespace Sys2Proof.Machine

/-! ## Pseudo-operations (R80) -/

/-- `WAIT n`: `n` µs pass with no edge. -/
def wait (n : Nat) : List Instr := List.replicate n (.tick 0)

/-- `EDGE_AFTER n`, for `n ≥ 1`: an edge `n` µs after the current instant. -/
def edgeAfter (n : Nat) : List Instr := wait (n - 1) ++ [.tick 1]

/-- `RXBIT b`: one nominal data-bit cycle ending in an edge. -/
def rxBit (b : Bool) : List Instr := edgeAfter (bitCycle b)

/-- `RXFRAME a, c`: the 34 falling edges of a nominal frame, preceded by a 20000 µs gap. -/
def rxFrame (address : BitVec 16) (command : BitVec 8) : List Instr :=
  edgeAfter 20000 ++ edgeAfter Config.startUs ++
    (List.range Config.frameBits).flatMap fun i => rxBit ((frameWord address command).getLsbD i)

/-- `WAITS n`: `n` seconds pass. -/
def waits (n : Nat) : List Instr := List.replicate n .sec

/-- The number of one bits of `v`. -/
def popcount {n : Nat} (v : BitVec n) : Nat := (List.range n).countP fun i => v.getLsbD i

/-- The duration of a whole frame whose address is `address`, in µs: the leader, 32 data bits of which as many are ones as
`address` has and 8 more, and the stop mark (R65). With the values of R9 it is `49260 + 1100 × (popcount(address) + 8)`. -/
def frameUs (address : BitVec 16) : Nat :=
  Config.leaderMarkUs + Config.leaderSpaceUs + Config.frameBits * Config.zeroUs + Config.stopMarkUs +
    (Config.oneUs - Config.zeroUs) * (popcount address + 8)

/-- `SENDWAIT a, c`: send and let the whole frame play. -/
def sendWait (address : BitVec 16) (command : BitVec 8) : List Instr :=
  .send address command :: wait (frameUs address)

/-! ## Syntax (R79): the mnemonic, then the operands separated by commas, `;` starting a comment -/

/-- The value of a digit in base 10 or 16. -/
def digitValue (base : Nat) (c : Char) : Option Nat :=
  let v :=
    if '0' ≤ c ∧ c ≤ '9' then c.toNat - '0'.toNat
    else if 'a' ≤ c ∧ c ≤ 'f' then c.toNat - 'a'.toNat + 10
    else if 'A' ≤ c ∧ c ≤ 'F' then c.toNat - 'A'.toNat + 10
    else base
  if v < base then some v else none

/-- The number that the digits `cs` continue, `n` being the part already read. -/
def digitsValue (base : Nat) : Nat → List Char → Option Nat
  | n, [] => some n
  | n, c :: cs => (digitValue base c).bind fun v => digitsValue base (n * base + v) cs

/-- A number, decimal or `0x` hexadecimal. -/
def parseNumber : List Char → Option Nat
  | [] => none
  | '0' :: 'x' :: c :: cs => digitsValue 16 0 (c :: cs)
  | c :: cs => digitsValue 10 0 (c :: cs)

/-- A line without its comment. -/
def stripComment (cs : List Char) : List Char := cs.takeWhile (· ≠ ';')

/-- The words of a line: runs of characters that are neither blanks nor commas. `word` is the run read so far, last
character first. -/
def splitWords : List Char → List Char → List (List Char)
  | word, [] => if word.isEmpty then [] else [word.reverse]
  | word, c :: cs =>
    if c = ' ' ∨ c = ',' then (if word.isEmpty then splitWords [] cs else word.reverse :: splitWords [] cs)
    else splitWords (c :: word) cs

/-- The operation of a mnemonic and its operands in the order of R75, where they fit their fields (R76). -/
def assembleWords (m : List Char) (operands : List Nat) : Option Instr :=
  let fits (width : Nat) (v : Nat) (i : Instr) : Option Instr := if v < 2 ^ width then some i else none
  if m = ['R', 'E', 'S', 'E', 'T'] then (if operands = [] then some .reset else none)
  else if m = ['T', 'I', 'C', 'K'] then (match operands with | [e] => fits 8 e (.tick e) | _ => none)
  else if m = ['S', 'E', 'C'] then (if operands = [] then some .sec else none)
  else if m = ['S', 'E', 'N', 'D'] then
    (match operands with
     | [a, c] => (fits 16 a .sec).bind fun _ => fits 8 c (.send (BitVec.ofNat 16 a) (BitVec.ofNat 8 c))
     | _ => none)
  else if m = ['R', 'E', 'C', 'V'] then (if operands = [] then some .recv else none)
  else if m = ['L', 'S', 'T', 'A', 'T'] then (if operands = [] then some .lstat else none)
  else if m = ['C', 'L', 'A', 'S', 'S'] then (match operands with | [dt] => fits 32 dt (.classify dt) | _ => none)
  else if m = ['A', 'I', 'N', 'I', 'T'] then (if operands = [] then some .ainit else none)
  else if m = ['A', 'S', 'E', 'R', 'V'] then (if operands = [] then some .aserv else none)
  else if m = ['A', 'S', 'E', 'T'] then
    (match operands with
     | [day, secs] => (fits 3 day .sec).bind fun _ => fits 32 secs (.aset day secs)
     | _ => none)
  else if m = ['A', 'G', 'E', 'T'] then (match operands with | [day] => fits 3 day (.aget day) | _ => none)
  else if m = ['T', 'S', 'E', 'T'] then (match operands with | [v] => fits 32 v (.tset v) | _ => none)
  else if m = ['T', 'G', 'E', 'T'] then (if operands = [] then some .tget else none)
  else none

/-- The operation that a line of assembly text stands for, or none. -/
def assembleLine (line : List Char) : Option Instr :=
  match splitWords [] (stripComment line) with
  | [] => none
  | m :: ws => (ws.mapM parseNumber).bind (assembleWords m)

end Sys2Proof.Machine
end

