-- ==== Sys2Proof/Safety.lean ====
section
/-!
DEFINITION. The terms that claims about the block use: its invariants (`spec/10_state.md` rule R40), runs of operations,
the packets that the ring holds, and the pattern of alarm events.
-/

namespace Sys2Proof.Machine

/-! ## Invariants -/

/-- `(s.head - s.tail) mod RING_CAP`: how many packets the ring holds (R40 item 6). -/
def ringCount (l : IrLink) : Nat := (l.head.toNat + Config.ringCap - l.tail.toNat) % Config.ringCap

/-- The invariants of the IR Link record. Items 1 to 6 of R40, and what makes them inductive: while `Transmitting` the plan
index selects an interval (R26) and every interval of the plan has a length (R67); otherwise the index is 0 (R95) and no
edge is remembered (R96); the measurement counter counts modulo `MEAS_WRAP` where that is set (R25). -/
abbrev LinkInv (p : Config.Params) (l : IrLink) : Prop :=
  (l.edgeEn = true ↔ l.link ≠ .transmitting) ∧
  (l.link ≠ .transmitting →
    l.tmrPer.toNat = Config.quietUs ∧ l.carrierOn = false ∧ l.planIdx = 0 ∧ l.edgeLatched = false) ∧
  (l.link = .transmitting →
    l.planIdx.toNat < Config.planLen ∧ l.tmrPer = intervalUs (readPlan l.plan l.planIdx.toNat) ∧
    l.carrierOn = isMark (readPlan l.plan l.planIdx.toNat) ∧
    ∀ i < Config.planLen,
      0 < (intervalUs (readPlan l.plan i)).toNat ∧ (intervalUs (readPlan l.plan i)).toNat ≤ Config.quietUs) ∧
  l.tmrCnt.toNat < l.tmrPer.toNat ∧ l.tmrPer.toNat ≤ Config.quietUs ∧
  l.accN.toNat < Config.frameBits ∧ l.accBits.toNat < 2 ^ l.accN.toNat ∧
  l.head.toNat < Config.ringCap ∧ l.tail.toNat < Config.ringCap ∧ ringCount l < Config.ringCap ∧
  (p.edgeLatchTx = false → l.edgeLatched = false) ∧
  (∀ m ∈ p.measWrap, 0 < m → l.measCnt < m)

/-- The invariants of the Alarm Scheduler record. Item 7 of R40, the widths of the counter and the target (R31, R32), and
the legal values of the table and the cells (R36, R37, R72). -/
abbrev SchedulerInv (p : Config.Params) (a : Scheduler) : Prop :=
  (a.almPend = true → a.almEn = false) ∧
  a.rtcCnt < 2 ^ p.cntW ∧ a.almTgt < 2 ^ p.cntW ∧
  (∀ i < Config.days, (readTable a.table i).toNat < Config.secPerDay) ∧
  (∀ i < Config.days, (readCell a.cell i).toNat ≤ Config.cellMax)

/-- The invariant of the block between two operations. -/
abbrev Inv (s : State) : Prop :=
  s.params.wf ∧ LinkInv s.params s.ir ∧ SchedulerInv s.params s.alarm

/-- Every legal descriptor that an agent has yet to issue is an operation of that agent (R11, R164). -/
def InputsOwned (s : State) : Prop :=
  ∀ a, ∀ d ∈ queue s.inputs a, ∀ i, decode d = .ok i → agentOf i = a

/-! ## Runs -/

/-- The operations `is` one after the other, each as its own atomic step, with no other operation between them. -/
def runOps : List Instr → State → Host.Outcome State Fault Refusal
  | [], s => .next s
  | i :: is, s =>
    match exec i s with
    | .next t => runOps is t
    | .fault r => .fault r
    | .refused r => .refused r

/-- `S(k)` of R97: the time from the start of plan `plan` to the start of its interval `k`, in µs. -/
def planStart (plan : Vector (BitVec 16) Config.planLen) (k : Nat) : Nat :=
  ((List.range k).map fun i => (intervalUs (readPlan plan i)).toNat).sum

/-- The time from the falling edge that starts mark `k` of plan `plan` to the next falling edge, in µs: that mark and the
space after it (R66). -/
def edgeInterval (plan : Vector (BitVec 16) Config.planLen) (k : Nat) : Nat :=
  (intervalUs (readPlan plan (2 * k))).toNat + (intervalUs (readPlan plan (2 * k + 1))).toNat

/-! ## The ring as a queue -/

/-- The packets that the ring holds, oldest first (R29, R57, R122). -/
def packets (l : IrLink) : List FrameWord :=
  (List.range (ringCount l)).map fun k => readRing l.ring ((l.tail.toNat + k) % Config.ringCap)

/-! ## Alarm events -/

/-- The events of `n` services, one before each of `n` seconds: `ASERV`, `SEC`, `ASERV`, `SEC`, … . -/
def watchAlarm : Nat → State → Option (List AlarmEvent)
  | 0, _ => some []
  | n + 1, s =>
    match exec .aserv s with
    | .next t =>
      match exec .sec t with
      | .next u => (watchAlarm n u).map (t.out.event :: ·)
      | _ => none
    | _ => none

/-- What R140 has fire at counter value `c`: the sunrise of a day with a table entry, or the rollover at a midnight. -/
def eventAt (a : Scheduler) (c : Nat) : AlarmEvent :=
  if c % Config.secPerDay = 0 then .rollover
  else if c % Config.secPerDay = (readTable a.table (dow (dayOf c))).toNat then .sunrise
  else .none

end Sys2Proof.Machine
end

