-- ==== Sys2Proof/Certificates/Slice0/Obligations.lean ====
section
/-!
DEFINITION. The statements about the model for the provers. Each docstring names the rule of `spec/` it formalises, and the
log entry of a clause that is the model's own choice.

`out := t.out` in a next state leaves the outputs of an operation that returns nothing unsaid; where an operation returns a
value, the statement says it. The outputs stand in State as log 4 says, and what the agents have yet to issue as log 5 says.
-/

open Sys2Proof Sys2Proof.Machine

/-! ## Encoding -/

/-- R74 to R76: no bit of an encoding is dropped. -/
def Obligations.DecodeOfEncode : Prop :=
  ∀ i : Instr, WellFormed i → decode (encode i) = .ok i

/-- R76: what the decoder accepts is exactly the encoding of a well-formed operation. -/
def Obligations.EncodeOfDecode : Prop :=
  ∀ (d : Descriptor) (i : Instr), decode d = .ok i → WellFormed i ∧ encode i = d

/-- R75, R77: a word that belongs to a row of the opcode table decodes to that row's operation, and every other word is
illegal. -/
def Obligations.DecodeFollowsOpcodeTable : Prop :=
  ∀ d : Descriptor,
    (∀ r ∈ opcodeTable, r.holds d → ∃ i, decode d = .ok i ∧ mnemonic i = r.mnemonic) ∧
    ((∀ r ∈ opcodeTable, ¬ r.holds d) → ∃ e, decode d = .error e)

/-- The spec's own words V-DE1 to V-DE8 (`spec/95_test_vectors.md`). -/
def Obligations.ExampleWordsDecode : Prop :=
  decode 0x0100000000000000 = .ok .reset ∧
  decode 0x0200000000000001 = .ok (.tick 1) ∧
  decode 0x1000123400000056 = .ok (.send 0x1234 0x56) ∧
  decode 0x180000000000044C = .ok (.classify 1100) ∧
  decode 0x2200000000004650 = .ok (.aset 0 18000) ∧
  decode 0x2200000200006270 = .ok (.aset 2 25200) ∧
  decode 0x2300000200000000 = .ok (.aget 2) ∧
  decode 0x240000000000464E = .ok (.tset 17998)

/-! ## Steps, holds and faults -/

/-- R11, R13, R52: where the agent whose turn it is has a descriptor that decodes to an operation of that agent, the step is
that operation, run after the turn has been used up and the descriptor has left the queue; a held operation stays there. -/
def Obligations.StepRunsDecoded : Prop :=
  ∀ (s : State) (a : Agent) (d : Descriptor) (i : Instr),
    s.fault = none → nextTurn s = .issue a d → decode d = .ok i → agentOf i = a →
    WellFormed i ∧ step s = exec i (afterTurn s a (held i s))

/-- R77: a word of no row raises `F_ILLEGAL`, which records the word, and changes nothing else; a word of a row decodes. The
turn is used up and the word has left its queue, which are the model's own inputs (log 5). -/
def Obligations.IllegalDescriptorRaises : Prop :=
  (∀ (s : State) (a : Agent) (d : Descriptor),
    s.fault = none → nextTurn s = .issue a d → (∀ r ∈ opcodeTable, ¬ r.holds d) →
    step s = .next { s with fault := some ⟨.illegal d, d⟩, inputs := (afterTurn s a false).inputs }) ∧
  (∀ d : Descriptor, (∃ r ∈ opcodeTable, r.holds d) → ∃ i, WellFormed i ∧ encode i = d ∧ decode d = .ok i)

/-- R13, R89, R154: only `SEND` is ever held, and while it is held a turn of `MAIN` changes nothing but the schedule: the
descriptor stays at the head of `MAIN`'s program. -/
def Obligations.HeldSendStaysAtHead : Prop :=
  (∀ (i : Instr) (s : State), held i s = true ↔ ∃ a c, i = .send a c ∧ s.ir.link ≠ .clearToSend) ∧
  (∀ (s : State) (address : BitVec 16) (command : BitVec 8),
    s.fault = none → nextTurn s = .issue .main (encode (.send address command)) → s.ir.link ≠ .clearToSend →
    step s = .next { s with inputs := { s.inputs with schedule := s.inputs.schedule.tail } })

/-- R151: an operation that raises discards every write and records the fault with its descriptor; after that no operation
of any agent has a step, `RESET` included. -/
def Obligations.FaultIsPreciseAndFinal : Prop :=
  (∀ (i : Instr) (s t : State), s.fault = none → exec i s = .next t → t.fault ≠ none →
    ∃ info, t = { s with fault := some ⟨info, encode i⟩ }) ∧
  (∀ s : State, s.fault ≠ none → step s = .fault .stuck ∧ ∀ i, exec i s = .fault .stuck)

/-- R152, R161: which operation raises which fault, with which information. -/
def Obligations.FaultCauses : Prop :=
  ∀ (i : Instr) (s t : State) (r : FaultRecord), s.fault = none → exec i s = .next t → t.fault = some r →
    (∃ day secs, i = .aset day secs ∧ (7 ≤ day ∨ 86400 ≤ secs) ∧ r.info = .range [day, secs] ∧ r.info.code = 2) ∨
    (∃ day, i = .aget day ∧ 7 ≤ day ∧ r.info = .range [day] ∧ r.info.code = 2) ∨
    (∃ v, i = .tset v ∧ 2 ^ s.params.cntW ≤ v ∧ r.info = .range [v] ∧ r.info.code = 2) ∨
    ((i = .ainit ∨ i = .aserv ∨ i = .reset) ∧
      ∃ target, 2 ^ s.params.cntW ≤ target ∧ r.info = .armOvf target ∧ r.info.code = 3) ∨
    (i = .reset ∧ ∃ day < 7, 1439 < (readCell s.alarm.cell day).toNat ∧
      r.info = .cellRange day (readCell s.alarm.cell day).toNat ∧ r.info.code = 4)

/-- R13, R151, R160: while no fault is recorded and each agent issues its own operations, every step answers a next state.
The idle turn is the model's (log 5). -/
def Obligations.StepAlwaysAnswers : Prop :=
  ∀ s : State, s.fault = none → InputsOwned s → ∃ t, step s = .next t

/-! ## Invariants -/

/-- R40, with the widths and legal values of R26, R31, R32, R36, R37: every step keeps the invariant of the block. -/
def Obligations.StepKeepsInvariant : Prop :=
  ∀ s t : State, Inv s → step s = .next t → Inv t

/-- The invariant holds right after reset, with the retained values that log 1 names. -/
def Obligations.ResetStateMeetsInvariant : Prop := Inv State.reset

/-- R171, R172, R174: whatever the state before (the retained cells included), a `RESET` that does not fault establishes
the invariant. -/
def Obligations.EveryResetEstablishesInvariant : Prop :=
  ∀ s t : State, s.params.wf → s.alarm.rtcCnt < 2 ^ s.params.cntW →
    exec .reset s = .next t → t.fault = none → Inv t

/-! ## Classifier -/

/-- R82: the windows, closed and open. -/
def Obligations.ClassifierWindows : Prop :=
  ∀ (p : Config.Params) (dt : Nat),
    (p.tolClosed = true →
      classifySymbol p dt =
        if dt = 0 then .repeatMark
        else if 950 ≤ dt ∧ dt ≤ 1250 then .zero
        else if 2050 ≤ dt ∧ dt ≤ 2350 then .one
        else if 13350 ≤ dt ∧ dt ≤ 13650 then .start
        else .noise) ∧
    (p.tolClosed = false →
      classifySymbol p dt =
        if dt = 0 then .repeatMark
        else if 950 < dt ∧ dt < 1250 then .zero
        else if 2050 < dt ∧ dt < 2350 then .one
        else if 13350 < dt ∧ dt < 13650 then .start
        else .noise)

/-- R85, with the codes of R68: `CLASS` returns the code of the symbol and writes no state. -/
def Obligations.ClassReturnsSymbolCode : Prop :=
  ∀ (s : State) (dt : Nat), s.fault = none →
    exec (.classify dt) s =
      .next { s with
        out :=
          ⟨some (match classifySymbol s.params dt with
            | .zero => 0 | .one => 1 | .start => 2 | .repeatMark => 3 | .noise => 4), .none⟩ }

/-! ## Transmit path -/

/-- R61, R62: the fields of the frame word of `(address, command)`. -/
def Obligations.FrameWordFields : Prop :=
  ∀ (address : BitVec 16) (command : BitVec 8),
    (frameWord address command).extractLsb' 0 16 = address ∧
    (frameWord address command).extractLsb' 16 8 = command ∧
    (frameWord address command).extractLsb' 24 8 = command ^^^ 0xFF

/-- R67, R88: every entry of the timing plan of frame word `w`, as a signed number; none is 0. -/
def Obligations.PlanLayout : Prop :=
  ∀ (p : Config.Params) (w : FrameWord), p.wf →
    let v : Nat → Int := fun i => (readPlan (buildPlan p w) i).toInt
    v 0 = 9000 ∧ v 1 = -4500 ∧
    (∀ i < 32, v (2 + 2 * i) = p.bitMarkUs ∧
      v (3 + 2 * i) = -((if w.getLsbD i then 2200 else 1100) - p.bitMarkUs)) ∧
    v 66 = 560 ∧ ∀ i < 67, v i ≠ 0

/-- R65: how long a frame lasts, by the one-bits of its word; and for a frame that is sent, by its address. -/
def Obligations.FrameDuration : Prop :=
  (∀ (p : Config.Params) (w : FrameWord), p.wf →
    planStart (buildPlan p w) 67 = 49260 + 1100 * popcount w) ∧
  (∀ (address : BitVec 16) (command : BitVec 8),
    let w := frameWord address command
    popcount w = popcount address + 8 ∧
    58060 ≤ 49260 + 1100 * popcount w ∧ 49260 + 1100 * popcount w ≤ 75660 ∧
    (address = 0x0000 → 49260 + 1100 * popcount w = 58060) ∧
    (address = 0xFFFF → 49260 + 1100 * popcount w = 75660))

/-- R89: `SEND` from `ClearToSend` builds the plan and starts its first interval in the same step; in any other link state
it is held. -/
def Obligations.SendStartsTransmission : Prop :=
  ∀ (s : State) (address : BitVec 16) (command : BitVec 8), s.fault = none →
    (s.ir.link = .clearToSend → ∃ t, exec (.send address command) s = .next t ∧
      t = { s with
        ir := { s.ir with
          plan := buildPlan s.params (frameWord address command)
          edgeEn := false
          link := .transmitting
          planIdx := 0
          carrierOn := true
          tmrPer := 9000
          tmrCnt := 0 }
        out := t.out }) ∧
    (s.ir.link ≠ .clearToSend → exec (.send address command) s = .next s)

/-- R97: after `SEND`, whatever edges arrive, the carrier at every µs is the sign of the plan's interval that time has
reached; at the end of the plan, `49260 + 1100 * p` µs after the `SEND`, the link is `Receiving`, the carrier off and the
edge interrupt enabled. -/
def Obligations.TransmitTimeline : Prop :=
  ∀ (s : State) (address : BitVec 16) (command : BitVec 8) (es : List Nat),
    s.fault = none → s.params.wf → s.ir.link = .clearToSend →
    let plan := buildPlan s.params (frameWord address command)
    (∀ k j, k < 67 → j < (intervalUs (readPlan plan k)).toNat → es.length = planStart plan k + j →
      ∃ t, runOps (.send address command :: es.map .tick) s = .next t ∧
        t.ir.link = .transmitting ∧ t.ir.edgeEn = false ∧ t.ir.planIdx.toNat = k ∧ t.ir.tmrCnt.toNat = j ∧
        t.ir.carrierOn = decide (0 < (readPlan plan k).toInt)) ∧
    planStart plan 67 = 49260 + 1100 * popcount (frameWord address command) ∧
    (es.length = planStart plan 67 →
      ∃ t, runOps (.send address command :: es.map .tick) s = .next t ∧
        t.ir.link = .receiving ∧ t.ir.edgeEn = true ∧ t.ir.carrierOn = false ∧ t.ir.planIdx = 0 ∧
        t.ir.tmrCnt = 0 ∧ t.ir.tmrPer = 45000)

/-- R98: while the link is `Transmitting`, only the end of the plan and `RESET` leave that state; `RESET` returns every IR
field to its reset value (the ring's contents are unspecified, R171). -/
def Obligations.TransmissionCannotBeAborted : Prop :=
  ∀ (i : Instr) (s t : State), s.fault = none → Inv s → s.ir.link = .transmitting → exec i s = .next t →
    t.ir.link = .transmitting ∨
    (∃ e, i = .tick e ∧ s.ir.planIdx = 66 ∧ s.ir.tmrCnt + 1 = s.ir.tmrPer ∧ t.ir.link = .receiving) ∨
    (i = .reset ∧ t.ir = { IrLink.reset with ring := t.ir.ring })

/-- R156, and R171 for `RESET`: who changes the enable of the edge interrupt. -/
def Obligations.EdgeEnableWriters : Prop :=
  ∀ (i : Instr) (s t : State), exec i s = .next t → t.ir.edgeEn ≠ s.ir.edgeEn →
    (∃ a c, i = .send a c ∧ t.ir.edgeEn = false) ∨
    (∃ e, i = .tick e ∧ s.ir.link = .transmitting ∧ 67 ≤ (s.ir.planIdx + 1).toNat ∧ t.ir.edgeEn = true) ∨
    i = .reset

/-! ## Receive path -/

/-- R46, R99, R101, R117: `TICK` with any number of edges completes; it leaves the scheduler, the plan and the consumer
index as they were; at most one packet is pushed, at the producer index, and every other ring entry stays. -/
def Obligations.TickCompletesAndFrames : Prop :=
  ∀ (s : State) (e : Nat), s.fault = none →
    ∃ t, exec (.tick e) s = .next t ∧ t = { s with ir := t.ir, out := t.out } ∧
      t.ir.plan = s.ir.plan ∧ t.ir.tail = s.ir.tail ∧
      (t.ir.head = s.ir.head ∧ t.ir.ring = s.ir.ring ∨
        t.ir.head = s.ir.head + 1 ∧ ∀ j, j ≠ s.ir.head.toNat → readRing t.ir.ring j = readRing s.ir.ring j)

/-- R101: a `TICK` without edges in which the timer does not expire counts one µs on both counters and nothing else. -/
def Obligations.QuietTickCounts : Prop :=
  ∀ s : State, s.fault = none → s.ir.tmrCnt + 1 ≠ s.ir.tmrPer →
    ∃ t, exec (.tick 0) s = .next t ∧
      t = { s with
        ir := { s.ir with measCnt := countMeasure s.params s.ir.measCnt, tmrCnt := s.ir.tmrCnt + 1 }, out := t.out }

/-- R107, R109: an expiry in `Receiving` makes the link `ClearToSend`; in `ClearToSend` it changes nothing but the reload of
the timer. -/
def Obligations.QuietExpiry : Prop :=
  ∀ s : State, s.fault = none → s.ir.tmrCnt + 1 = s.ir.tmrPer →
    (s.ir.link = .receiving → ∃ t, exec (.tick 0) s = .next t ∧
      t = { s with
        ir := { s.ir with
          measCnt := countMeasure s.params s.ir.measCnt, tmrCnt := 0, link := .clearToSend }, out := t.out }) ∧
    (s.ir.link = .clearToSend → ∃ t, exec (.tick 0) s = .next t ∧
      t = { s with
        ir := { s.ir with measCnt := countMeasure s.params s.ir.measCnt, tmrCnt := 0 }, out := t.out })

/-- R94, R95: an expiry while `Transmitting` moves to the next interval of the plan, and after the last one ends the
transmission; a remembered edge (R96) is then handled in the same step. Edges in the µs of the expiry are masked (R103). -/
def Obligations.PlayerStepsThePlan : Prop :=
  ∀ (s : State) (e : Nat), s.fault = none → s.ir.link = .transmitting → s.ir.edgeEn = false →
    s.ir.tmrCnt + 1 = s.ir.tmrPer →
    let latched := s.ir.edgeLatched || (s.params.edgeLatchTx && decide (0 < e))
    let meas := countMeasure s.params s.ir.measCnt
    (s.ir.planIdx.toNat < 66 → ∃ t, exec (.tick e) s = .next t ∧
      t = { s with
        ir := { s.ir with
          measCnt := meas
          tmrCnt := 0
          planIdx := s.ir.planIdx + 1
          carrierOn := decide (0 < (readPlan s.ir.plan (s.ir.planIdx.toNat + 1)).toInt)
          tmrPer := BitVec.ofNat 16 (readPlan s.ir.plan (s.ir.planIdx.toNat + 1)).toInt.natAbs
          edgeLatched := latched }
        out := t.out }) ∧
    (s.ir.planIdx = 66 → ∃ t, exec (.tick e) s = .next t ∧
      let done : IrLink := { s.ir with
        measCnt := meas
        carrierOn := false
        link := .receiving
        tmrPer := 45000
        tmrCnt := 0
        edgeEn := true
        planIdx := 0
        edgeLatched := latched }
      t = { s with
        ir := if s.params.edgeLatchTx && latched then edge s.params { done with edgeLatched := false } else done
        out := t.out })

/-- R103: while the edge interrupt is disabled, edges change nothing but, with `EDGE_LATCH_TX`, the remembered edge. -/
def Obligations.MaskedEdgesAreNotActioned : Prop :=
  ∀ (s : State) (e : Nat), s.fault = none → s.ir.edgeEn = false →
    exec (.tick e) s =
      exec (.tick 0) { s with
        ir := { s.ir with edgeLatched := s.ir.edgeLatched || (s.params.edgeLatchTx && decide (0 < e)) } }

/-- R102: an actioned edge restarts the timer, so that an expiry due at the same instant does not happen. -/
def Obligations.EdgeBeatsExpiry : Prop :=
  ∀ (s : State) (e : Nat), s.fault = none → s.ir.edgeEn = true → 0 < e → s.ir.tmrPer ≠ 0 →
    ∃ t, exec (.tick e) s = .next t ∧
      t.ir.link = .receiving ∧ t.ir.tmrCnt = 0 ∧ t.ir.measCnt = 0 ∧ t.ir.tmrPer = s.ir.tmrPer ∧
      t.ir.edgeEn = true ∧ t.ir.carrierOn = s.ir.carrierOn ∧ t.ir.planIdx = s.ir.planIdx

/-- R104, R110, R111: what one actioned edge does to the accumulator and the ring, by the symbol of the measured interval;
the second of several edges in one µs measures 0 and so clears the accumulator (R101). -/
def Obligations.EdgeUpdatesAccumulator : Prop :=
  ∀ s : State, s.fault = none → s.ir.edgeEn = true → s.ir.accN.toNat ≤ 31 →
    let sym := classifySymbol s.params (countMeasure s.params s.ir.measCnt)
    (∃ t, exec (.tick 1) s = .next t ∧
      (∀ b : Bool, sym = (if b then .one else .zero) →
        ∃ w : FrameWord,
          (∀ j, w.getLsbD j = if j = s.ir.accN.toNat then b else s.ir.accBits.getLsbD j) ∧
          (s.ir.accN.toNat < 31 →
            t.ir.accN = s.ir.accN + 1 ∧ t.ir.accBits = w ∧ t.ir.ring = s.ir.ring ∧ t.ir.head = s.ir.head) ∧
          (s.ir.accN.toNat = 31 →
            t.ir.accN = 0 ∧ t.ir.accBits = 0 ∧
            (s.ir.head + 1 = s.ir.tail → t.ir.ring = s.ir.ring ∧ t.ir.head = s.ir.head) ∧
            (s.ir.head + 1 ≠ s.ir.tail →
              t.ir.head = s.ir.head + 1 ∧ readRing t.ir.ring s.ir.head.toNat = w ∧
              ∀ j, j ≠ s.ir.head.toNat → readRing t.ir.ring j = readRing s.ir.ring j))) ∧
      (sym = .start ∨ sym = .repeatMark ∨ sym = .noise →
        t.ir.accN = 0 ∧ t.ir.accBits = 0 ∧ t.ir.ring = s.ir.ring ∧ t.ir.head = s.ir.head)) ∧
    (∀ e ≥ 2, ∃ t, exec (.tick e) s = .next t ∧ t.ir.accN = 0 ∧ t.ir.accBits = 0)

/-- R117: a push into a full ring changes nothing; any other stores the word at the producer index and advances it. -/
def Obligations.PushStoresOrDrops : Prop :=
  ∀ (l : IrLink) (w : FrameWord),
    (l.head + 1 = l.tail → push l w = l) ∧
    (l.head + 1 ≠ l.tail →
      push l w = { l with ring := (push l w).ring, head := l.head + 1 } ∧
      readRing (push l w).ring l.head.toNat = w ∧ ∀ j, j ≠ l.head.toNat → readRing (push l w).ring j = readRing l.ring j)

/-- R108: 45000 quiet µs make `Receiving` into `ClearToSend`, not one less, and nothing else does. -/
def Obligations.QuietProofBeforeClearToSend : Prop :=
  (∀ (s : State) (n : Nat), s.fault = none → s.ir.link = .receiving → s.ir.tmrPer = 45000 →
    s.ir.tmrCnt.toNat < 45000 → s.ir.tmrCnt.toNat + n ≤ 45000 →
    ∃ t, runOps (wait n) s = .next t ∧
      t.ir.link = if s.ir.tmrCnt.toNat + n = 45000 then .clearToSend else .receiving) ∧
  (∀ (i : Instr) (s t : State), s.fault = none → Inv s → exec i s = .next t →
    s.ir.link ≠ .clearToSend → t.ir.link = .clearToSend →
    i = .tick 0 ∧ s.ir.link = .receiving ∧ s.ir.tmrCnt.toNat + 1 = 45000)

/-- R25, R116: how the measured interval grows in `n` µs without edges: modulo `MEAS_WRAP` where that is set. -/
def Obligations.MeasureWraps : Prop :=
  ∀ (s : State) (n : Nat), s.fault = none → s.params.edgeLatchTx = false →
    (∀ m ∈ s.params.measWrap, s.ir.measCnt < m) →
    ∃ t, runOps (wait n) s = .next t ∧
      t.ir.measCnt = match s.params.measWrap with
        | none => s.ir.measCnt + n
        | some m => (s.ir.measCnt + n) % m

/-- The round trip, from R86, R113 and R115 as log 14 reads them (DEDUCED: the model's reading, not R86's own words). From the first of the 34 falling edges of a frame on, whatever the accumulator holds,
33 intervals within 150 µs of the transmitter's own (its plan, whatever its parameters) push exactly the frame word that was
sent, if the ring is not full. (What the FIRST edge does depends on what preceded it, R113, and it may complete an older
frame; so the packets are compared from right after it: log 14.) -/
def Obligations.FrameRoundTrip : Prop :=
  ∀ (s t : State) (p : Config.Params) (address : BitVec 16) (command : BitVec 8) (gap : Nat → Nat),
    s.fault = none → s.ir.edgeEn = true → s.ir.tmrPer = 45000 → s.params.tolClosed = true →
    (∀ m ∈ s.params.measWrap, 13650 < m) → p.wf → exec (.tick 1) s = .next t →
    (∀ k < 33, edgeInterval (buildPlan p (frameWord address command)) k ≤ gap k + 150 ∧
      gap k ≤ edgeInterval (buildPlan p (frameWord address command)) k + 150) →
    ∃ u, runOps ((List.range 33).flatMap fun k => edgeAfter (gap k)) t = .next u ∧
      u.ir.accN = 0 ∧ u.ir.accBits = 0 ∧ u.ir.link = .receiving ∧
      packets u.ir =
        if t.ir.head + 1 = t.ir.tail then packets t.ir else packets t.ir ++ [frameWord address command]

/-- R112: no operation but `TICK` and `RESET` writes the accumulator, and a `TICK` without an edge, actioned or remembered,
does not either; after at least 45000 µs of silence the next edge clears it. -/
def Obligations.AccumulatorWriters : Prop :=
  (∀ (i : Instr) (s t : State), exec i s = .next t → (∀ e, i ≠ .tick e) → i ≠ .reset →
    t.ir.accN = s.ir.accN ∧ t.ir.accBits = s.ir.accBits) ∧
  (∀ s t : State, exec (.tick 0) s = .next t → (s.params.edgeLatchTx && s.ir.edgeLatched) = false →
    t.ir.accN = s.ir.accN ∧ t.ir.accBits = s.ir.accBits) ∧
  (∀ s : State, s.fault = none → s.params.measWrap = none → s.ir.edgeEn = true → 45000 ≤ s.ir.measCnt + 1 →
    ∃ t, exec (.tick 1) s = .next t ∧ t.ir.accN = 0 ∧ t.ir.accBits = 0)

/-- R114, with the codes of R70: `LSTAT` returns the code of the link state and writes no state. -/
def Obligations.LstatReturnsLinkCode : Prop :=
  ∀ s : State, s.fault = none →
    exec .lstat s =
      .next { s with
        out :=
          ⟨some (match s.ir.link with | .receiving => 0 | .transmitting => 1 | .clearToSend => 2), .none⟩ }

/-! ## Packet ring -/

/-- R120, R121: `RECV` returns the oldest packet and advances the consumer index; from an empty ring it returns a word with
address 0xFFFF, whose other bits are a draw (log 2), and changes no state of the block. -/
def Obligations.RecvReturnsOldestOrSentinel : Prop :=
  ∀ s : State, s.fault = none →
    (s.ir.head ≠ s.ir.tail →
      exec .recv s =
        .next { s with
          ir := { s.ir with tail := s.ir.tail + 1 }
          out := ⟨some (readRing s.ir.ring s.ir.tail.toNat).toNat, .none⟩ }) ∧
    (s.ir.head = s.ir.tail →
      ∃ w : FrameWord, w.extractLsb' 0 16 = 0xFFFF ∧
        exec .recv s = .next { s with draws := s.draws + 1, out := ⟨some w.toNat, .none⟩ })

/-- R118, R119, R122, R123: the ring is a first-in first-out queue of at most 255 packets. `RECV` takes the oldest, a `TICK`
adds at most one at the end, `RESET` empties it, and no other operation touches it. -/
def Obligations.RingIsFirstInFirstOut : Prop :=
  ∀ (i : Instr) (s t : State), s.fault = none → exec i s = .next t → t.fault = none →
    (packets t.ir).length ≤ 255 ∧
    (i = .recv → packets s.ir ≠ [] →
      ∃ w, packets s.ir = w :: packets t.ir ∧ t.out.result = some w.toNat) ∧
    (i = .recv → packets s.ir = [] → packets t.ir = []) ∧
    (∀ e, i = .tick e → ∃ new, packets t.ir = packets s.ir ++ new ∧ new.length ≤ 1) ∧
    (i = .reset → packets t.ir = []) ∧
    (i ≠ .recv → (∀ e, i ≠ .tick e) → i ≠ .reset → packets t.ir = packets s.ir)

/-! ## Alarm scheduler -/

/-- R126: `SEC` counts modulo `2^CNT_W`; a match sets the pending flag, whatever it was, and disarms. -/
def Obligations.SecCountsAndMatches : Prop :=
  ∀ s : State, s.fault = none →
    let c := (s.alarm.rtcCnt + 1) % 2 ^ s.params.cntW
    ∃ t, exec .sec s = .next t ∧
      t = { s with
        alarm :=
          if s.alarm.almEn = true ∧ c = s.alarm.almTgt then
            { s.alarm with rtcCnt := c, almPend := true, almEn := false }
          else { s.alarm with rtcCnt := c }
        out := t.out }

/-- R127, R135: arming writes the target; a target that is the current second fires at once where `ALARM_MATCH_ON_ARM` says
so; a target that does not fit the counter raises. -/
def Obligations.ArmSetsTheOneAlarm : Prop :=
  ∀ (p : Config.Params) (target : Nat) (a : Scheduler),
    (2 ^ p.cntW ≤ target → arm p target a = .error (.armOvf target)) ∧
    (target < 2 ^ p.cntW → p.alarmMatchOnArm = true → a.rtcCnt = target →
      arm p target a = .ok { a with almTgt := target, almPend := true, almEn := false }) ∧
    (target < 2 ^ p.cntW → (p.alarmMatchOnArm = false ∨ a.rtcCnt ≠ target) →
      arm p target a = .ok { a with almTgt := target, almEn := true })

/-- R130 to R133: `AINIT` takes the day from the counter and arms today's alarm if the day has one and it has not elapsed,
else the next midnight; a target that does not fit raises. -/
def Obligations.AinitArmsTodayOrMidnight : Prop :=
  ∀ s : State, s.fault = none →
    let d := s.alarm.rtcCnt / 86400
    let v := (readTable s.alarm.table (d % 7)).toNat
    let today := v ≠ 0 ∧ s.alarm.rtcCnt ≤ d * 86400 + v
    let target := if today then d * 86400 + v else (d + 1) * 86400
    let now := s.params.alarmMatchOnArm = true ∧ s.alarm.rtcCnt = target
    (target < 2 ^ s.params.cntW → ∃ t, exec .ainit s = .next t ∧
      t = { s with
        alarm := { s.alarm with
          curDay := BitVec.ofNat 32 d
          isSunrise := decide today
          almTgt := target
          almPend := decide now
          almEn := decide (¬ now) }
        out := t.out }) ∧
    (2 ^ s.params.cntW ≤ target →
      exec .ainit s = .next { s with fault := some ⟨.armOvf target, encode .ainit⟩ })

/-- R136: with nothing pending, `ASERV` returns `NONE` and changes nothing. -/
def Obligations.AservWithNothingPending : Prop :=
  ∀ s : State, s.fault = none → s.alarm.almPend = false →
    exec .aserv s = .next { s with out := ⟨some 0, .none⟩ }

/-- R136, R137: a pending sunrise is served by the `SUNRISE` event, and the next midnight is armed; the day does not
advance. -/
def Obligations.AservServesSunrise : Prop :=
  ∀ s : State, s.fault = none → s.alarm.almPend = true → s.alarm.isSunrise = true →
    let target := (s.alarm.curDay.toNat + 1) * 86400
    let now := s.params.alarmMatchOnArm = true ∧ s.alarm.rtcCnt = target
    (target < 2 ^ s.params.cntW →
      exec .aserv s = .next { s with
        alarm := { s.alarm with
          isSunrise := false, almTgt := target, almPend := decide now, almEn := decide (¬ now) }
        out := ⟨some 1, .sunrise⟩ }) ∧
    (2 ^ s.params.cntW ≤ target →
      exec .aserv s = .next { s with fault := some ⟨.armOvf target, encode .aserv⟩ })

/-- R136, R138: a pending rollover is served by the `ROLLOVER` event; the day advances, and the new day's alarm is armed if
it has one, else the following midnight. Nothing tests whether that alarm has elapsed (R139). -/
def Obligations.AservServesRollover : Prop :=
  ∀ s : State, s.fault = none → s.alarm.almPend = true → s.alarm.isSunrise = false →
    let n := (s.alarm.curDay + 1).toNat
    let v := (readTable s.alarm.table (n % 7)).toNat
    let target := if v ≠ 0 then n * 86400 + v else (n + 1) * 86400
    let now := s.params.alarmMatchOnArm = true ∧ s.alarm.rtcCnt = target
    (target < 2 ^ s.params.cntW →
      exec .aserv s = .next { s with
        alarm := { s.alarm with
          curDay := s.alarm.curDay + 1
          isSunrise := decide (v ≠ 0)
          almTgt := target
          almPend := decide now
          almEn := decide (¬ now) }
        out := ⟨some 2, .rollover⟩ }) ∧
    (2 ^ s.params.cntW ≤ target →
      exec .aserv s = .next { s with fault := some ⟨.armOvf target, encode .aserv⟩ })

/-- R142, R145: `ASET` stores the seconds in the table and the whole units in the cell of that day; every other entry and
the armed alarm stay; an operand out of range raises. -/
def Obligations.AsetStoresTableAndCell : Prop :=
  ∀ (s : State) (day secs : Nat), s.fault = none →
    (day < 7 → secs < 86400 → ∃ t, exec (.aset day secs) s = .next t ∧
      t = { s with alarm := { s.alarm with table := t.alarm.table, cell := t.alarm.cell }, out := t.out } ∧
      (∀ j < 7, (readTable t.alarm.table j).toNat = if j = day then secs else (readTable s.alarm.table j).toNat) ∧
      (s.params.cellUnitS = 60 →
        ∀ j < 7, (readCell t.alarm.cell j).toNat = if j = day then secs / 60 else (readCell s.alarm.cell j).toNat)) ∧
    (7 ≤ day ∨ 86400 ≤ secs →
      exec (.aset day secs) s = .next { s with fault := some ⟨.range [day, secs], encode (.aset day secs)⟩ })

/-- R144: `AGET` returns the entry of the table; a day out of range raises. -/
def Obligations.AgetReturnsEntry : Prop :=
  ∀ (s : State) (day : Nat), s.fault = none →
    (day < 7 → exec (.aget day) s = .next { s with out := ⟨some (readTable s.alarm.table day).toNat, .none⟩ }) ∧
    (7 ≤ day → exec (.aget day) s = .next { s with fault := some ⟨.range [day], encode (.aget day)⟩ })

/-- R146: `TSET` writes the counter and nothing else (no match test, no re-arm); a value that does not fit raises. -/
def Obligations.TsetWritesCounterOnly : Prop :=
  ∀ (s : State) (v : Nat), s.fault = none →
    (v < 2 ^ s.params.cntW → ∃ t, exec (.tset v) s = .next t ∧
      t = { s with alarm := { s.alarm with rtcCnt := v }, out := t.out }) ∧
    (2 ^ s.params.cntW ≤ v →
      exec (.tset v) s = .next { s with fault := some ⟨.range [v], encode (.tset v)⟩ })

/-- R147: `TGET` returns the counter and writes no state. -/
def Obligations.TgetReturnsCounter : Prop :=
  ∀ s : State, s.fault = none → exec .tget s = .next { s with out := ⟨some s.alarm.rtcCnt, .none⟩ }

/-- R143, R186: what `ASET` stored comes back from a reboot rounded down to the minute. -/
def Obligations.AsetSurvivesRebootInMinutes : Prop :=
  ∀ (s t u : State) (day secs : Nat), s.params.cellUnitS = 60 → day < 7 → secs < 86400 →
    exec (.aset day secs) s = .next t → exec .reset t = .next u → u.fault = none →
    (readTable t.alarm.table day).toNat = secs ∧ (readTable u.alarm.table day).toNat = secs / 60 * 60

/-- R128: a target that the counter has passed does not match until the counter wraps. -/
def Obligations.LateTargetNeverMatches : Prop :=
  ∀ (s : State) (n : Nat), s.fault = none → s.alarm.almTgt ≤ s.alarm.rtcCnt →
    s.alarm.rtcCnt + n < 2 ^ s.params.cntW →
    ∃ t, runOps (waits n) s = .next t ∧ t.alarm = { s.alarm with rtcCnt := s.alarm.rtcCnt + n }

/-- R126: an armed alarm whose target is ahead fires at exactly the second of its target, once. -/
def Obligations.ArmedAlarmFiresAtTarget : Prop :=
  ∀ (s : State) (n : Nat), s.fault = none → s.alarm.almEn = true → s.alarm.rtcCnt < s.alarm.almTgt →
    s.alarm.rtcCnt + n < 2 ^ s.params.cntW →
    ∃ t, runOps (waits n) s = .next t ∧ t.alarm.rtcCnt = s.alarm.rtcCnt + n ∧
      (s.alarm.rtcCnt + n < s.alarm.almTgt → t.alarm.almPend = s.alarm.almPend ∧ t.alarm.almEn = true) ∧
      (s.alarm.almTgt ≤ s.alarm.rtcCnt + n → t.alarm.almPend = true ∧ t.alarm.almEn = false)

/-- R140, R150, from R130, R136 to R138: after `AINIT` at counter value `c`, with a service before every second, service
`j` (at counter value `c + j`) gives the rollover at each midnight after `c`, the sunrise at each day's alarm not before `c`,
and nothing at any other second. -/
def Obligations.ServicedSchedulerFollowsTheWeek : Prop :=
  ∀ (s t : State) (n : Nat), s.fault = none → s.params.alarmMatchOnArm = true →
    (∀ i < 7, (readTable s.alarm.table i).toNat < 86400) →
    s.alarm.rtcCnt + n + 2 * 86400 < 2 ^ s.params.cntW → s.params.cntW ≤ 32 → exec .ainit s = .next t →
    watchAlarm n t =
      some ((List.range n).map fun j =>
        if j = 0 ∧ s.alarm.rtcCnt % 86400 = 0 then .none else eventAt s.alarm (s.alarm.rtcCnt + j))

/-! ## Reset -/

/-- R44, R171, R172: `RESET` puts the IR link at its reset values, keeps the counter and the cells, loads the table from the
cells, and arms as `AINIT` does; a target that does not fit raises, and so does the first cell above 1439, with nothing reset.
The ring's contents after it are unspecified (log 3). -/
def Obligations.ResetBootsTheBlock : Prop :=
  ∀ s : State, s.fault = none → s.params.cellUnitS = 60 →
    let d := s.alarm.rtcCnt / 86400
    let v := (readCell s.alarm.cell (d % 7)).toNat * 60
    let today := v ≠ 0 ∧ s.alarm.rtcCnt ≤ d * 86400 + v
    let target := if today then d * 86400 + v else (d + 1) * 86400
    let now := s.params.alarmMatchOnArm = true ∧ s.alarm.rtcCnt = target
    ((∀ i < 7, (readCell s.alarm.cell i).toNat ≤ 1439) → target < 2 ^ s.params.cntW →
      ∃ t, exec .reset s = .next t ∧
        t = { s with
          ir :=
            { link := .receiving, edgeEn := true, carrierOn := false, tmrCnt := 0, tmrPer := 45000, measCnt := 0,
              planIdx := 0, plan := Vector.replicate 67 0, accN := 0, accBits := 0, ring := t.ir.ring, head := 0,
              tail := 0, edgeLatched := false }
          alarm := { s.alarm with
            table := t.alarm.table
            curDay := BitVec.ofNat 32 d
            isSunrise := decide today
            almTgt := target
            almPend := decide now
            almEn := decide (¬ now) }
          out := t.out
          draws := t.draws } ∧
        ∀ i < 7, (readTable t.alarm.table i).toNat = (readCell s.alarm.cell i).toNat * 60) ∧
    ((∀ i < 7, (readCell s.alarm.cell i).toNat ≤ 1439) → 2 ^ s.params.cntW ≤ target →
      exec .reset s = .next { s with fault := some ⟨.armOvf target, encode .reset⟩ }) ∧
    (∀ day < 7, 1439 < (readCell s.alarm.cell day).toNat → (∀ j < day, (readCell s.alarm.cell j).toNat ≤ 1439) →
      exec .reset s =
        .next { s with fault := some ⟨.cellRange day (readCell s.alarm.cell day).toNat, encode .reset⟩ })

/-! ## Ownership and independence -/

/-- R31, R36, R37, R45: who writes the counter, the table and the cells; and no operation writes the parameters or what the
agents have yet to issue, which are the model's own (log 5). -/
def Obligations.RetainedStateWriters : Prop :=
  ∀ (i : Instr) (s t : State), exec i s = .next t →
    (i ≠ .sec → (∀ v, i ≠ .tset v) → t.alarm.rtcCnt = s.alarm.rtcCnt) ∧
    ((∀ d v, i ≠ .aset d v) → t.alarm.cell = s.alarm.cell) ∧
    ((∀ d v, i ≠ .aset d v) → i ≠ .reset → t.alarm.table = s.alarm.table) ∧
    t.params = s.params ∧ t.inputs = s.inputs

/-- R12, R149 and D34: the two halves of the block share no state. Every operation but `RESET` leaves one half as it was, and
what it leaves of the other half depends on that half and the parameters alone. -/
def Obligations.HalvesShareNoState : Prop :=
  ∀ (i : Instr) (s s' t t' : State), s.fault = none → s'.fault = none → s.params = s'.params →
    exec i s = .next t → exec i s' = .next t' → i ≠ .reset →
    ((agentOf i = .irenv ∨ i = .recv ∨ i = .lstat ∨ (∃ a c, i = .send a c) ∨ ∃ dt, i = .classify dt) →
      t.alarm = s.alarm ∧ t.fault = none ∧ (s.ir = s'.ir → t.ir = t'.ir)) ∧
    ((agentOf i = .rtc ∨ i = .ainit ∨ i = .aserv ∨ i = .tget ∨ (∃ d v, i = .aset d v) ∨ (∃ d, i = .aget d) ∨
        ∃ v, i = .tset v) →
      t.ir = s.ir ∧ (s.alarm = s'.alarm → t.alarm = t'.alarm ∧ t.fault = t'.fault))
end

