-- ==== Sys2Proof/Laws/State.lean ====
section
/-!
SUPPORT. What each named update of the state leaves in each field: one lemma per field and update, each true by definition,
so that no later proof unfolds a record update.
-/

namespace Sys2Proof.Machine

/-! ### `deliver` -/

@[simp] theorem deliver_ir (s : State) (r : Option Nat) (e : AlarmEvent) : (deliver s r e).ir = s.ir := rfl
@[simp] theorem deliver_alarm (s : State) (r : Option Nat) (e : AlarmEvent) : (deliver s r e).alarm = s.alarm := rfl
@[simp] theorem deliver_fault (s : State) (r : Option Nat) (e : AlarmEvent) : (deliver s r e).fault = s.fault := rfl
@[simp] theorem deliver_out (s : State) (r : Option Nat) (e : AlarmEvent) : (deliver s r e).out = ⟨r, e⟩ := rfl
@[simp] theorem deliver_draws (s : State) (r : Option Nat) (e : AlarmEvent) : (deliver s r e).draws = s.draws := rfl
@[simp] theorem deliver_params (s : State) (r : Option Nat) (e : AlarmEvent) : (deliver s r e).params = s.params := rfl
@[simp] theorem deliver_inputs (s : State) (r : Option Nat) (e : AlarmEvent) : (deliver s r e).inputs = s.inputs := rfl

/-! ### `raise` -/

@[simp] theorem raise_ir (s : State) (info : FaultInfo) (d : Descriptor) : (raise s info d).ir = s.ir := rfl
@[simp] theorem raise_alarm (s : State) (info : FaultInfo) (d : Descriptor) : (raise s info d).alarm = s.alarm := rfl
@[simp] theorem raise_fault (s : State) (info : FaultInfo) (d : Descriptor) : (raise s info d).fault = some ⟨info, d⟩ := rfl
@[simp] theorem raise_out (s : State) (info : FaultInfo) (d : Descriptor) : (raise s info d).out = s.out := rfl
@[simp] theorem raise_draws (s : State) (info : FaultInfo) (d : Descriptor) : (raise s info d).draws = s.draws := rfl
@[simp] theorem raise_params (s : State) (info : FaultInfo) (d : Descriptor) : (raise s info d).params = s.params := rfl
@[simp] theorem raise_inputs (s : State) (info : FaultInfo) (d : Descriptor) : (raise s info d).inputs = s.inputs := rfl

/-! ### `afterIdle` -/

@[simp] theorem afterIdle_ir (s : State) : (afterIdle s).ir = s.ir := rfl
@[simp] theorem afterIdle_alarm (s : State) : (afterIdle s).alarm = s.alarm := rfl
@[simp] theorem afterIdle_fault (s : State) : (afterIdle s).fault = s.fault := rfl
@[simp] theorem afterIdle_out (s : State) : (afterIdle s).out = s.out := rfl
@[simp] theorem afterIdle_draws (s : State) : (afterIdle s).draws = s.draws := rfl
@[simp] theorem afterIdle_params (s : State) : (afterIdle s).params = s.params := rfl
@[simp] theorem afterIdle_inputs (s : State) : (afterIdle s).inputs = { s.inputs with schedule := s.inputs.schedule.tail } := rfl

/-! ### `afterTurn` -/

@[simp] theorem afterTurn_ir (s : State) (a : Agent) (b : Bool) : (afterTurn s a b).ir = s.ir := rfl
@[simp] theorem afterTurn_alarm (s : State) (a : Agent) (b : Bool) : (afterTurn s a b).alarm = s.alarm := rfl
@[simp] theorem afterTurn_fault (s : State) (a : Agent) (b : Bool) : (afterTurn s a b).fault = s.fault := rfl
@[simp] theorem afterTurn_out (s : State) (a : Agent) (b : Bool) : (afterTurn s a b).out = s.out := rfl
@[simp] theorem afterTurn_draws (s : State) (a : Agent) (b : Bool) : (afterTurn s a b).draws = s.draws := rfl
@[simp] theorem afterTurn_params (s : State) (a : Agent) (b : Bool) : (afterTurn s a b).params = s.params := rfl

/-! ### `issueNext` -/

@[simp] theorem issueNext_ir (s : State) (a : Agent) (d : Descriptor) : (issueNext s a d).ir = s.ir := rfl
@[simp] theorem issueNext_alarm (s : State) (a : Agent) (d : Descriptor) : (issueNext s a d).alarm = s.alarm := rfl
@[simp] theorem issueNext_fault (s : State) (a : Agent) (d : Descriptor) : (issueNext s a d).fault = s.fault := rfl
@[simp] theorem issueNext_out (s : State) (a : Agent) (d : Descriptor) : (issueNext s a d).out = s.out := rfl
@[simp] theorem issueNext_draws (s : State) (a : Agent) (d : Descriptor) : (issueNext s a d).draws = s.draws := rfl
@[simp] theorem issueNext_params (s : State) (a : Agent) (d : Descriptor) : (issueNext s a d).params = s.params := rfl

/-! ### `clearAccumulator` -/

@[simp] theorem clearAccumulator_link (l : IrLink) : (clearAccumulator l).link = l.link := rfl
@[simp] theorem clearAccumulator_edgeEn (l : IrLink) : (clearAccumulator l).edgeEn = l.edgeEn := rfl
@[simp] theorem clearAccumulator_carrierOn (l : IrLink) : (clearAccumulator l).carrierOn = l.carrierOn := rfl
@[simp] theorem clearAccumulator_tmrCnt (l : IrLink) : (clearAccumulator l).tmrCnt = l.tmrCnt := rfl
@[simp] theorem clearAccumulator_tmrPer (l : IrLink) : (clearAccumulator l).tmrPer = l.tmrPer := rfl
@[simp] theorem clearAccumulator_measCnt (l : IrLink) : (clearAccumulator l).measCnt = l.measCnt := rfl
@[simp] theorem clearAccumulator_planIdx (l : IrLink) : (clearAccumulator l).planIdx = l.planIdx := rfl
@[simp] theorem clearAccumulator_plan (l : IrLink) : (clearAccumulator l).plan = l.plan := rfl
@[simp] theorem clearAccumulator_accN (l : IrLink) : (clearAccumulator l).accN = 0 := rfl
@[simp] theorem clearAccumulator_accBits (l : IrLink) : (clearAccumulator l).accBits = 0 := rfl
@[simp] theorem clearAccumulator_ring (l : IrLink) : (clearAccumulator l).ring = l.ring := rfl
@[simp] theorem clearAccumulator_head (l : IrLink) : (clearAccumulator l).head = l.head := rfl
@[simp] theorem clearAccumulator_tail (l : IrLink) : (clearAccumulator l).tail = l.tail := rfl
@[simp] theorem clearAccumulator_edgeLatched (l : IrLink) : (clearAccumulator l).edgeLatched = l.edgeLatched := rfl

/-! ### `passMicrosecond` -/

@[simp] theorem passMicrosecond_link (l : IrLink) (p : Config.Params) : (passMicrosecond p l).link = l.link := rfl
@[simp] theorem passMicrosecond_edgeEn (l : IrLink) (p : Config.Params) : (passMicrosecond p l).edgeEn = l.edgeEn := rfl
@[simp] theorem passMicrosecond_carrierOn (l : IrLink) (p : Config.Params) : (passMicrosecond p l).carrierOn = l.carrierOn := rfl
@[simp] theorem passMicrosecond_tmrCnt (l : IrLink) (p : Config.Params) : (passMicrosecond p l).tmrCnt = l.tmrCnt + 1 := rfl
@[simp] theorem passMicrosecond_tmrPer (l : IrLink) (p : Config.Params) : (passMicrosecond p l).tmrPer = l.tmrPer := rfl
@[simp] theorem passMicrosecond_measCnt (l : IrLink) (p : Config.Params) : (passMicrosecond p l).measCnt = countMeasure p l.measCnt := rfl
@[simp] theorem passMicrosecond_planIdx (l : IrLink) (p : Config.Params) : (passMicrosecond p l).planIdx = l.planIdx := rfl
@[simp] theorem passMicrosecond_plan (l : IrLink) (p : Config.Params) : (passMicrosecond p l).plan = l.plan := rfl
@[simp] theorem passMicrosecond_accN (l : IrLink) (p : Config.Params) : (passMicrosecond p l).accN = l.accN := rfl
@[simp] theorem passMicrosecond_accBits (l : IrLink) (p : Config.Params) : (passMicrosecond p l).accBits = l.accBits := rfl
@[simp] theorem passMicrosecond_ring (l : IrLink) (p : Config.Params) : (passMicrosecond p l).ring = l.ring := rfl
@[simp] theorem passMicrosecond_head (l : IrLink) (p : Config.Params) : (passMicrosecond p l).head = l.head := rfl
@[simp] theorem passMicrosecond_tail (l : IrLink) (p : Config.Params) : (passMicrosecond p l).tail = l.tail := rfl
@[simp] theorem passMicrosecond_edgeLatched (l : IrLink) (p : Config.Params) : (passMicrosecond p l).edgeLatched = l.edgeLatched := rfl

/-! ### `playInterval` -/

@[simp] theorem playInterval_link (l : IrLink) : (playInterval l).link = l.link := rfl
@[simp] theorem playInterval_edgeEn (l : IrLink) : (playInterval l).edgeEn = l.edgeEn := rfl
@[simp] theorem playInterval_carrierOn (l : IrLink) : (playInterval l).carrierOn = isMark (readPlan l.plan l.planIdx.toNat) := rfl
@[simp] theorem playInterval_tmrCnt (l : IrLink) : (playInterval l).tmrCnt = l.tmrCnt := rfl
@[simp] theorem playInterval_tmrPer (l : IrLink) : (playInterval l).tmrPer = intervalUs (readPlan l.plan l.planIdx.toNat) := rfl
@[simp] theorem playInterval_measCnt (l : IrLink) : (playInterval l).measCnt = l.measCnt := rfl
@[simp] theorem playInterval_planIdx (l : IrLink) : (playInterval l).planIdx = l.planIdx := rfl
@[simp] theorem playInterval_plan (l : IrLink) : (playInterval l).plan = l.plan := rfl
@[simp] theorem playInterval_accN (l : IrLink) : (playInterval l).accN = l.accN := rfl
@[simp] theorem playInterval_accBits (l : IrLink) : (playInterval l).accBits = l.accBits := rfl
@[simp] theorem playInterval_ring (l : IrLink) : (playInterval l).ring = l.ring := rfl
@[simp] theorem playInterval_head (l : IrLink) : (playInterval l).head = l.head := rfl
@[simp] theorem playInterval_tail (l : IrLink) : (playInterval l).tail = l.tail := rfl
@[simp] theorem playInterval_edgeLatched (l : IrLink) : (playInterval l).edgeLatched = l.edgeLatched := rfl

/-! ### `startTransmission` -/

@[simp] theorem startTransmission_link (l : IrLink) (p : Config.Params) (w : FrameWord) : (startTransmission p w l).link = .transmitting := rfl
@[simp] theorem startTransmission_edgeEn (l : IrLink) (p : Config.Params) (w : FrameWord) : (startTransmission p w l).edgeEn = false := rfl
@[simp] theorem startTransmission_tmrCnt (l : IrLink) (p : Config.Params) (w : FrameWord) : (startTransmission p w l).tmrCnt = 0 := rfl
@[simp] theorem startTransmission_measCnt (l : IrLink) (p : Config.Params) (w : FrameWord) : (startTransmission p w l).measCnt = l.measCnt := rfl
@[simp] theorem startTransmission_planIdx (l : IrLink) (p : Config.Params) (w : FrameWord) : (startTransmission p w l).planIdx = 0 := rfl
@[simp] theorem startTransmission_plan (l : IrLink) (p : Config.Params) (w : FrameWord) : (startTransmission p w l).plan = buildPlan p w := rfl
@[simp] theorem startTransmission_accN (l : IrLink) (p : Config.Params) (w : FrameWord) : (startTransmission p w l).accN = l.accN := rfl
@[simp] theorem startTransmission_accBits (l : IrLink) (p : Config.Params) (w : FrameWord) : (startTransmission p w l).accBits = l.accBits := rfl
@[simp] theorem startTransmission_ring (l : IrLink) (p : Config.Params) (w : FrameWord) : (startTransmission p w l).ring = l.ring := rfl
@[simp] theorem startTransmission_head (l : IrLink) (p : Config.Params) (w : FrameWord) : (startTransmission p w l).head = l.head := rfl
@[simp] theorem startTransmission_tail (l : IrLink) (p : Config.Params) (w : FrameWord) : (startTransmission p w l).tail = l.tail := rfl
@[simp] theorem startTransmission_edgeLatched (l : IrLink) (p : Config.Params) (w : FrameWord) : (startTransmission p w l).edgeLatched = l.edgeLatched := rfl

/-! ### `endTransmission` -/

@[simp] theorem endTransmission_link (l : IrLink) : (endTransmission l).link = .receiving := rfl
@[simp] theorem endTransmission_edgeEn (l : IrLink) : (endTransmission l).edgeEn = true := rfl
@[simp] theorem endTransmission_carrierOn (l : IrLink) : (endTransmission l).carrierOn = false := rfl
@[simp] theorem endTransmission_tmrCnt (l : IrLink) : (endTransmission l).tmrCnt = 0 := rfl
@[simp] theorem endTransmission_tmrPer (l : IrLink) : (endTransmission l).tmrPer = BitVec.ofNat 16 Config.quietUs := rfl
@[simp] theorem endTransmission_measCnt (l : IrLink) : (endTransmission l).measCnt = l.measCnt := rfl
@[simp] theorem endTransmission_planIdx (l : IrLink) : (endTransmission l).planIdx = 0 := rfl
@[simp] theorem endTransmission_plan (l : IrLink) : (endTransmission l).plan = l.plan := rfl
@[simp] theorem endTransmission_accN (l : IrLink) : (endTransmission l).accN = l.accN := rfl
@[simp] theorem endTransmission_accBits (l : IrLink) : (endTransmission l).accBits = l.accBits := rfl
@[simp] theorem endTransmission_ring (l : IrLink) : (endTransmission l).ring = l.ring := rfl
@[simp] theorem endTransmission_head (l : IrLink) : (endTransmission l).head = l.head := rfl
@[simp] theorem endTransmission_tail (l : IrLink) : (endTransmission l).tail = l.tail := rfl
@[simp] theorem endTransmission_edgeLatched (l : IrLink) : (endTransmission l).edgeLatched = l.edgeLatched := rfl

/-! ### `fire` -/

@[simp] theorem fire_rtcCnt (a : Scheduler) : (fire a).rtcCnt = a.rtcCnt := rfl
@[simp] theorem fire_almTgt (a : Scheduler) : (fire a).almTgt = a.almTgt := rfl
@[simp] theorem fire_almEn (a : Scheduler) : (fire a).almEn = false := rfl
@[simp] theorem fire_almPend (a : Scheduler) : (fire a).almPend = true := rfl
@[simp] theorem fire_isSunrise (a : Scheduler) : (fire a).isSunrise = a.isSunrise := rfl
@[simp] theorem fire_curDay (a : Scheduler) : (fire a).curDay = a.curDay := rfl
@[simp] theorem fire_table (a : Scheduler) : (fire a).table = a.table := rfl
@[simp] theorem fire_cell (a : Scheduler) : (fire a).cell = a.cell := rfl

/-! ### `resetScheduler` -/

@[simp] theorem resetScheduler_rtcCnt (a : Scheduler) : (resetScheduler a).rtcCnt = a.rtcCnt := rfl
@[simp] theorem resetScheduler_almTgt (a : Scheduler) : (resetScheduler a).almTgt = 0 := rfl
@[simp] theorem resetScheduler_almEn (a : Scheduler) : (resetScheduler a).almEn = false := rfl
@[simp] theorem resetScheduler_almPend (a : Scheduler) : (resetScheduler a).almPend = false := rfl
@[simp] theorem resetScheduler_isSunrise (a : Scheduler) : (resetScheduler a).isSunrise = false := rfl
@[simp] theorem resetScheduler_curDay (a : Scheduler) : (resetScheduler a).curDay = 0 := rfl
@[simp] theorem resetScheduler_table (a : Scheduler) : (resetScheduler a).table = a.table := rfl
@[simp] theorem resetScheduler_cell (a : Scheduler) : (resetScheduler a).cell = a.cell := rfl

/-! ### `loadTable` -/

@[simp] theorem loadTable_rtcCnt (a : Scheduler) (p : Config.Params) : (loadTable p a).rtcCnt = a.rtcCnt := rfl
@[simp] theorem loadTable_almTgt (a : Scheduler) (p : Config.Params) : (loadTable p a).almTgt = a.almTgt := rfl
@[simp] theorem loadTable_almEn (a : Scheduler) (p : Config.Params) : (loadTable p a).almEn = a.almEn := rfl
@[simp] theorem loadTable_almPend (a : Scheduler) (p : Config.Params) : (loadTable p a).almPend = a.almPend := rfl
@[simp] theorem loadTable_isSunrise (a : Scheduler) (p : Config.Params) : (loadTable p a).isSunrise = a.isSunrise := rfl
@[simp] theorem loadTable_curDay (a : Scheduler) (p : Config.Params) : (loadTable p a).curDay = a.curDay := rfl
@[simp] theorem loadTable_cell (a : Scheduler) (p : Config.Params) : (loadTable p a).cell = a.cell := rfl

end Sys2Proof.Machine
end

