-- ==== Sys2Proof/Laws/Ops.lean ====
section
/-!
SUPPORT. For each shared operation, what it can do, said once: a proof cites these and does not unfold the operation.
-/

namespace Sys2Proof.Machine

/-! ## Ring indices (R29) -/

/-- Eight bits count modulo the capacity, so the next index is one more. -/
@[simp] theorem ringNext_eq (i : BitVec 8) : ringNext i = i + 1 := by
  apply BitVec.eq_of_toNat_eq
  simp [ringNext]

/-- What the ring holds is the difference of the two indices (R40 item 6). -/
theorem ringCount_eq (l : IrLink) : ringCount l = (l.head - l.tail).toNat := by
  have := l.tail.isLt
  simp only [ringCount, Config.ringCap, BitVec.toNat_sub]
  omega

/-- The place of the packet `k` behind the oldest one. -/
theorem ringPlace_eq (i : BitVec 8) (k : Nat) : (i.toNat + k) % Config.ringCap = (i + BitVec.ofNat 8 k).toNat := by
  simp [BitVec.toNat_add]

/-! ## Atomic steps (R52, R151) -/

theorem unlessFaulted_of_none {s : State} (h : s.fault = none) (o : Host.Outcome State Fault Refusal) :
    unlessFaulted s o = o := by simp [unlessFaulted, h]

theorem unlessFaulted_of_some {s : State} (h : s.fault ≠ none) (o : Host.Outcome State Fault Refusal) :
    unlessFaulted s o = .fault .stuck := by
  simp [unlessFaulted, Option.isSome_iff_ne_none, h]

theorem operate_ok {i : Instr} {s t : State} {body : State → Except FaultInfo State} (h : s.fault = none)
    (hb : body (deliver s none .none) = .ok t) : operate i s body = .next t := by
  simp [operate, unlessFaulted_of_none h, hb]

theorem operate_error {i : Instr} {s : State} {info : FaultInfo} {body : State → Except FaultInfo State}
    (h : s.fault = none) (hb : body (deliver s none .none) = .error info) :
    operate i s body = .next (raise s info (encode i)) := by
  simp [operate, unlessFaulted_of_none h, hb]

/-- All that an operation can do: its body's state, or the fault record in the state before it. -/
theorem operate_next {i : Instr} {s t : State} {body : State → Except FaultInfo State}
    (h : operate i s body = .next t) :
    s.fault = none ∧ (body (deliver s none .none) = .ok t ∨
      ∃ info, body (deliver s none .none) = .error info ∧ t = raise s info (encode i)) := by
  have hs : s.fault = none := by
    by_contra hs
    rw [operate, unlessFaulted_of_some hs] at h
    cases h
  rw [operate, unlessFaulted_of_none hs] at h
  refine ⟨hs, ?_⟩
  cases hb : body (deliver s none .none) with
  | ok u => rw [hb] at h; cases h; exact .inl rfl
  | error info => rw [hb] at h; cases h; exact .inr ⟨info, rfl, rfl⟩

/-- Every meaning starts from a state without a fault. -/
theorem exec_next_fault {i : Instr} {s t : State} (h : exec i s = .next t) : s.fault = none := by
  by_contra hs
  cases i <;>
    simp [exec, execReset, execTick, execSec, execSend, execRecv, execLstat, execClassify, execAinit, execAserv,
      execAset, execAget, execTset, execTget, operate, hold, unlessFaulted_of_some hs] at h

/-! ## The meanings, unfolded once -/

theorem exec_tick {s : State} (h : s.fault = none) (e : Nat) :
    exec (.tick e) s = .next { s with ir := tick s.params e s.ir, out := ⟨none, .none⟩ } := by
  rw [exec, execTick]
  exact operate_ok h rfl

theorem exec_sec {s : State} (h : s.fault = none) :
    exec .sec s = .next { s with alarm := second s.params s.alarm, out := ⟨none, .none⟩ } := by
  rw [exec, execSec]
  exact operate_ok h rfl

theorem exec_send {s : State} (h : s.fault = none) (hl : s.ir.link = .clearToSend) (a : BitVec 16) (c : BitVec 8) :
    exec (.send a c) s =
      .next { s with ir := startTransmission s.params (frameWord a c) s.ir, out := ⟨none, .none⟩ } := by
  have hh : sendHeld s = false := by simp [sendHeld, hl]
  rw [exec, execSend, hh, if_neg (by simp)]
  exact operate_ok h rfl

theorem exec_send_held {s : State} (h : s.fault = none) (hl : s.ir.link ≠ .clearToSend) (a : BitVec 16)
    (c : BitVec 8) : exec (.send a c) s = .next s := by
  have hh : sendHeld s = true := by simp [sendHeld, hl]
  simp [exec, execSend, hh, hold, unlessFaulted_of_none h]

theorem exec_recv_empty {s : State} (h : s.fault = none) (he : ringEmpty s.ir = true) :
    exec .recv s =
      .next { s with
        draws := s.draws + 1
        out := ⟨some (Config.sentinelHigh s.draws ++ Config.sentinelAddr : BitVec 32).toNat, .none⟩ } := by
  rw [exec, execRecv]
  refine operate_ok h ?_
  simp only [deliver_ir, he]
  rfl

theorem exec_recv {s : State} (h : s.fault = none) (he : ringEmpty s.ir = false) :
    exec .recv s =
      .next { s with
        ir := { s.ir with tail := s.ir.tail + 1 }, out := ⟨some (readRing s.ir.ring s.ir.tail.toNat).toNat, .none⟩ } := by
  rw [exec, execRecv]
  refine operate_ok h ?_
  simp only [deliver_ir, he, ringNext_eq]
  rfl

theorem exec_lstat {s : State} (h : s.fault = none) :
    exec .lstat s = .next { s with out := ⟨some s.ir.link.code.toNat, .none⟩ } := by
  rw [exec, execLstat]
  exact operate_ok h rfl

theorem exec_classify {s : State} (h : s.fault = none) (dt : Nat) :
    exec (.classify dt) s = .next { s with out := ⟨some (classifySymbol s.params dt).code.toNat, .none⟩ } := by
  rw [exec, execClassify]
  exact operate_ok h rfl

theorem exec_ainit_ok {s : State} {a : Scheduler} (h : s.fault = none) (hi : initAlarm s.params s.alarm = .ok a) :
    exec .ainit s = .next { s with alarm := a, out := ⟨none, .none⟩ } := by
  rw [exec, execAinit]
  refine operate_ok h ?_
  simp only [deliver_params, deliver_alarm, hi]
  rfl

theorem exec_ainit_error {s : State} {info : FaultInfo} (h : s.fault = none)
    (hi : initAlarm s.params s.alarm = .error info) : exec .ainit s = .next (raise s info (encode .ainit)) := by
  rw [exec, execAinit]
  refine operate_error h ?_
  simp only [deliver_params, deliver_alarm, hi]
  rfl

theorem exec_aserv_ok {s : State} {e : AlarmEvent} {a : Scheduler} (h : s.fault = none)
    (hi : serve s.params s.alarm = .ok (e, a)) :
    exec .aserv s = .next { s with alarm := a, out := ⟨some e.code.toNat, e⟩ } := by
  rw [exec, execAserv]
  refine operate_ok h ?_
  simp only [deliver_params, deliver_alarm, hi]
  rfl

theorem exec_aserv_error {s : State} {info : FaultInfo} (h : s.fault = none)
    (hi : serve s.params s.alarm = .error info) : exec .aserv s = .next (raise s info (encode .aserv)) := by
  rw [exec, execAserv]
  refine operate_error h ?_
  simp only [deliver_params, deliver_alarm, hi]
  rfl

theorem exec_aset {s : State} (h : s.fault = none) {day secs : Nat} (hd : day < 7) (hs : secs < 86400) :
    exec (.aset day secs) s =
      .next { s with
        alarm := { s.alarm with
          table := writeTable s.alarm.table day (BitVec.ofNat 17 secs)
          cell := writeCell s.alarm.cell day (BitVec.ofNat 16 (secs / s.params.cellUnitS)) }
        out := ⟨none, .none⟩ } := by
  rw [exec, execAset]
  refine operate_ok h ?_
  have : ¬(Config.days ≤ day ∨ Config.secPerDay ≤ secs) := by simp [Config.days, Config.secPerDay]; omega
  simp only [this, if_false]
  rfl

theorem exec_aset_range {s : State} (h : s.fault = none) {day secs : Nat} (hd : 7 ≤ day ∨ 86400 ≤ secs) :
    exec (.aset day secs) s = .next (raise s (.range [day, secs]) (encode (.aset day secs))) := by
  rw [exec, execAset]
  refine operate_error h ?_
  have : Config.days ≤ day ∨ Config.secPerDay ≤ secs := hd
  simp only [this, if_true]

theorem exec_aget {s : State} (h : s.fault = none) {day : Nat} (hd : day < 7) :
    exec (.aget day) s = .next { s with out := ⟨some (readTable s.alarm.table day).toNat, .none⟩ } := by
  rw [exec, execAget]
  refine operate_ok h ?_
  have : ¬Config.days ≤ day := by simp [Config.days]; omega
  simp only [this, if_false]
  rfl

theorem exec_aget_range {s : State} (h : s.fault = none) {day : Nat} (hd : 7 ≤ day) :
    exec (.aget day) s = .next (raise s (.range [day]) (encode (.aget day))) := by
  rw [exec, execAget]
  refine operate_error h ?_
  have : Config.days ≤ day := hd
  simp only [this, if_true]

theorem exec_tset {s : State} (h : s.fault = none) {v : Nat} (hv : v < 2 ^ s.params.cntW) :
    exec (.tset v) s = .next { s with alarm := { s.alarm with rtcCnt := v }, out := ⟨none, .none⟩ } := by
  rw [exec, execTset]
  refine operate_ok h ?_
  simp only [deliver_params, Nat.not_le.2 hv, if_false]
  rfl

theorem exec_tset_range {s : State} (h : s.fault = none) {v : Nat} (hv : 2 ^ s.params.cntW ≤ v) :
    exec (.tset v) s = .next (raise s (.range [v]) (encode (.tset v))) := by
  rw [exec, execTset]
  refine operate_error h ?_
  simp only [deliver_params, hv, if_true]

theorem exec_tget {s : State} (h : s.fault = none) :
    exec .tget s = .next { s with out := ⟨some s.alarm.rtcCnt, .none⟩ } := by
  rw [exec, execTget]
  exact operate_ok h rfl

theorem exec_reset_ok {s : State} {a : Scheduler} (h : s.fault = none)
    (hb : boot s.params (resetScheduler s.alarm) = .ok a) :
    exec .reset s =
      .next { s with ir := resetLink s.draws, alarm := a, draws := s.draws + 1, out := ⟨none, .none⟩ } := by
  rw [exec, execReset]
  refine operate_ok h ?_
  simp only [deliver_params, deliver_alarm, hb]
  rfl

theorem exec_reset_error {s : State} {info : FaultInfo} (h : s.fault = none)
    (hb : boot s.params (resetScheduler s.alarm) = .error info) :
    exec .reset s = .next (raise s info (encode .reset)) := by
  rw [exec, execReset]
  refine operate_error h ?_
  simp only [deliver_params, deliver_alarm, hb]
  rfl

/-! ## Elements of the storage spaces (R46, R47) -/

theorem readRing_writeRing (ring : Vector FrameWord Config.ringCap) {i : Nat} (hi : i < Config.ringCap) (w : FrameWord) (j : Nat) :
    readRing (writeRing ring i w) j = if j = i then w else readRing ring j := by
  by_cases h : j = i
  · subst h; simp [readRing, writeRing, hi]
  · simp [readRing, writeRing, h, Ne.symm h]

theorem readTable_writeTable (table : Vector (BitVec 17) Config.days) {i : Nat} (hi : i < Config.days) (v : BitVec 17) (j : Nat) :
    readTable (writeTable table i v) j = if j = i then v else readTable table j := by
  by_cases h : j = i
  · subst h; simp [readTable, writeTable, hi]
  · simp [readTable, writeTable, h, Ne.symm h]

theorem readCell_writeCell (cell : Vector (BitVec Config.cellW) Config.days) {i : Nat} (hi : i < Config.days)
    (v : BitVec Config.cellW) (j : Nat) :
    readCell (writeCell cell i v) j = if j = i then v else readCell cell j := by
  by_cases h : j = i
  · subst h; simp [readCell, writeCell, hi]
  · simp [readCell, writeCell, h, Ne.symm h]

theorem readTable_loadTable (p : Config.Params) (a : Scheduler) {i : Nat} (hi : i < 7) :
    readTable (loadTable p a).table i = BitVec.ofNat 17 ((readCell a.cell i).toNat * p.cellUnitS) := by
  simp [readTable, loadTable, hi]

/-- Entry `i` of a built plan is the entry that R67 gives, as a 16-bit number. -/
theorem readPlan_buildPlan (p : Config.Params) (w : FrameWord) {i : Nat} (hi : i < 67) :
    readPlan (buildPlan p w) i = BitVec.ofInt 16 (planEntry p w i) := by
  simp [readPlan, buildPlan, hi]

/-- The first interval of every plan is the leader mark (R67). -/
theorem readPlan_buildPlan_zero (p : Config.Params) (w : FrameWord) : readPlan (buildPlan p w) 0 = 9000 :=
  readPlan_buildPlan p w (by decide)

/-! ## Receive path -/

theorem push_of_full {l : IrLink} (w : FrameWord) (h : l.head + 1 = l.tail) : push l w = l := by
  have : ringFull l = true := by simpa [ringFull] using h
  simp [push, this]

theorem push_of_room {l : IrLink} (w : FrameWord) (h : l.head + 1 ≠ l.tail) :
    push l w = { l with ring := writeRing l.ring l.head.toNat w, head := l.head + 1 } := by
  have : ringFull l = false := by simpa [ringFull] using h
  simp [push, this]

/-- A written bit of the accumulator reads as written, and every other bit as before (R110). -/
theorem setBit_getLsbD (bits : BitVec 32) (n : BitVec 6) (b : Bool) (j : Nat) (hn : n.toNat < 32) :
    (setBit bits n b).getLsbD j = if j = n.toNat then b else bits.getLsbD j := by
  by_cases hj : j < 32
  · by_cases h : j = n.toNat
    · subst h; simp [setBit, hj]
    · by_cases hlt : j < n.toNat
      · simp [setBit, hj, h, hlt]
      · have h1 : ¬ (j - n.toNat = 0) := by omega
        simp [setBit, hj, h, hlt, h1]
  · have h : j ≠ n.toNat := by omega
    simp [h, BitVec.getLsbD_of_ge _ _ (Nat.le_of_not_lt hj)]

/-- While reception is disabled, edges only leave the remembered edge, and only with `EDGE_LATCH_TX` (R96, R103). -/
theorem edges_masked (p : Config.Params) (e : Nat) {l : IrLink} (h : l.edgeEn = false) :
    edges p e l = { l with edgeLatched := l.edgeLatched || (p.edgeLatchTx && decide (0 < e)) } := by
  induction e generalizing l with
  | zero => simp [edges]
  | succ e ih =>
    rw [edges, edgeInput]
    cases hp : p.edgeLatchTx with
    | false => simp [h, ih h, hp]
    | true =>
      have := ih (l := { l with edgeLatched := true }) h
      simp only [h, hp] at this ⊢
      simp [this]

/-! ## Transmit path -/

/-- `SEND` starts the leader mark of its plan in its own step (R89). -/
theorem startTransmission_eq (p : Config.Params) (w : FrameWord) (l : IrLink) :
    startTransmission p w l =
      { l with
        plan := buildPlan p w
        edgeEn := false
        link := .transmitting
        planIdx := 0
        carrierOn := true
        tmrPer := 9000
        tmrCnt := 0 } := by
  have h : readPlan (buildPlan p w) (0 : BitVec 7).toNat = 9000 := readPlan_buildPlan_zero p w
  simp only [startTransmission, playInterval, h]
  rfl

/-! ## Alarm scheduler -/

/-- The second in which the armed alarm matches (R126). -/
theorem second_of_match {p : Config.Params} {a : Scheduler} (he : a.almEn = true)
    (h : (a.rtcCnt + 1) % 2 ^ p.cntW = a.almTgt) :
    second p a = { a with rtcCnt := (a.rtcCnt + 1) % 2 ^ p.cntW, almPend := true, almEn := false } := by
  have hm : alarmMatches { a with rtcCnt := (a.rtcCnt + 1) % 2 ^ p.cntW } = true := by
    simp [alarmMatches, he, h]
  exact if_pos hm

/-- Every other second (R126). -/
theorem second_of_other {p : Config.Params} {a : Scheduler}
    (h : a.almEn = true → (a.rtcCnt + 1) % 2 ^ p.cntW ≠ a.almTgt) :
    second p a = { a with rtcCnt := (a.rtcCnt + 1) % 2 ^ p.cntW } := by
  have hm : ¬ alarmMatches { a with rtcCnt := (a.rtcCnt + 1) % 2 ^ p.cntW } = true := by
    simpa [alarmMatches] using h
  exact if_neg hm

theorem arm_of_large {p : Config.Params} {target : Nat} (a : Scheduler) (h : 2 ^ p.cntW ≤ target) :
    arm p target a = .error (.armOvf target) := by simp [arm, h]

/-- Arming a target that fits: the alarm is armed, or pending at once where the target is the current second (R127). -/
theorem arm_of_fits {p : Config.Params} {target : Nat} (a : Scheduler) (h : target < 2 ^ p.cntW) :
    arm p target a =
      .ok { a with
        almTgt := target
        almPend := a.almPend || (p.alarmMatchOnArm && a.rtcCnt == target)
        almEn := !(p.alarmMatchOnArm && a.rtcCnt == target) } := by
  simp only [arm, Nat.not_le.2 h, if_false]
  cases p.alarmMatchOnArm && a.rtcCnt == target <;> simp [fire]

/-- All that arming can do, where it does not raise. -/
theorem arm_next {p : Config.Params} {target : Nat} {a b : Scheduler} (h : arm p target a = .ok b) :
    target < 2 ^ p.cntW ∧
      b = { a with
        almTgt := target
        almPend := a.almPend || (p.alarmMatchOnArm && a.rtcCnt == target)
        almEn := !(p.alarmMatchOnArm && a.rtcCnt == target) } := by
  by_cases ht : target < 2 ^ p.cntW
  · rw [arm_of_fits a ht] at h
    exact ⟨ht, (Except.ok.inj h).symm⟩
  · rw [arm_of_large a (Nat.le_of_not_lt ht)] at h
    cases h

theorem arm_raises {p : Config.Params} {target : Nat} {a : Scheduler} {info : FaultInfo}
    (h : arm p target a = .error info) : 2 ^ p.cntW ≤ target ∧ info = .armOvf target := by
  by_cases ht : target < 2 ^ p.cntW
  · rw [arm_of_fits a ht] at h
    cases h
  · rw [arm_of_large a (Nat.le_of_not_lt ht)] at h
    exact ⟨Nat.le_of_not_lt ht, (Except.error.inj h).symm⟩

theorem serve_of_idle (p : Config.Params) {a : Scheduler} (h : a.almPend = false) : serve p a = .ok (.none, a) := by
  simp [serve, h]

/-- Serving a pending sunrise is arming the midnight after `s.cur_day` (R137). -/
theorem serve_sunrise (p : Config.Params) {a : Scheduler} (h : a.almPend = true) (hs : a.isSunrise = true) :
    serve p a =
      (arm p (startOfDay (a.curDay.toNat + 1)) { a with almPend := false, isSunrise := false }).map
        fun b => (.sunrise, b) := by
  simp [serve, h, hs, sunriseFiring]

/-- Serving a pending rollover is arming, for the day that begins, its alarm if it has one and its end otherwise (R138). -/
theorem serve_rollover (p : Config.Params) {a : Scheduler} (h : a.almPend = true) (hs : a.isSunrise = false) :
    serve p a =
      (let n := (a.curDay + 1).toNat
       let v := (readTable a.table (dow n)).toNat
       (arm p (if v ≠ 0 then startOfDay n + v else startOfDay (n + 1))
          { a with almPend := false, curDay := a.curDay + 1, isSunrise := decide (v ≠ 0) }).map
        fun b => (.rollover, b)) := by
  simp only [serve, h, hs, rolloverFiring]
  generalize (readTable a.table (dow (a.curDay + 1).toNat)).toNat = v
  by_cases hv : v = 0 <;> simp [hv]

/-- The boot meets no bad cell where every cell is legal (R172). -/
theorem badCell_none {a : Scheduler} (h : ∀ i < 7, (readCell a.cell i).toNat ≤ 1439) : badCell a = none := by
  simp only [badCell, Config.days, Config.cellMax, List.find?_eq_none, List.mem_range]
  intro i hi
  simpa using h i hi

/-- The boot stops at the first bad cell (R172). -/
theorem badCell_first {a : Scheduler} {day : Nat} (hd : day < 7) (hb : 1439 < (readCell a.cell day).toNat)
    (h : ∀ i < day, (readCell a.cell i).toNat ≤ 1439) : badCell a = some day := by
  have hr : List.range 7 = List.range day ++ day :: (List.range (6 - day)).map (· + (day + 1)) := by
    clear hb h
    revert day
    decide
  simp only [badCell, Config.days, Config.cellMax, hr]
  rw [List.find?_append, List.find?_eq_none.2, List.find?_cons_of_pos (by simpa using hb)]
  · rfl
  · intro i hi
    simpa using h i (by simpa using hi)

/-- `AINIT` is arming, from nothing armed and nothing pending, today's alarm or the next midnight (R130). -/
theorem initAlarm_eq (p : Config.Params) (a : Scheduler) :
    initAlarm p a =
      (let d := dayOf a.rtcCnt
       let v := (readTable a.table (dow d)).toNat
       arm p (if v ≠ 0 ∧ a.rtcCnt ≤ startOfDay d + v then startOfDay d + v else startOfDay (d + 1))
        { a with
          curDay := BitVec.ofNat 32 d
          almPend := false
          almEn := false
          isSunrise := decide (v ≠ 0 ∧ a.rtcCnt ≤ startOfDay d + v) }) := by
  simp only [initAlarm]
  generalize (readTable a.table (dow (dayOf a.rtcCnt))).toNat = v
  split
  · rename_i h
    simp [h.1, h.2]
  · rename_i h
    simp only [h, decide_false]

/-- The same, for a known day `d` and a known entry `v` of it. -/
theorem initAlarm_of (p : Config.Params) {a : Scheduler} {d v : Nat} (hd : a.rtcCnt / 86400 = d)
    (hv : (readTable a.table (d % 7)).toNat = v) :
    initAlarm p a =
      arm p (if v ≠ 0 ∧ a.rtcCnt ≤ d * 86400 + v then d * 86400 + v else (d + 1) * 86400)
        { a with
          curDay := BitVec.ofNat 32 d
          almPend := false
          almEn := false
          isSunrise := decide (v ≠ 0 ∧ a.rtcCnt ≤ d * 86400 + v) } := by
  subst hd hv
  exact initAlarm_eq p a

end Sys2Proof.Machine
end

