-- ==== Sys2Proof/Laws/Link.lean ====
section
/-!
SUPPORT. What the receive path and the time step leave in each field of the IR Link record, and all that each of their parts
can do, said once (`spec/42_ir_receive.md`, `spec/41_ir_transmit.md`).
-/

namespace Sys2Proof.Machine

/-! ### `push` (R117) -/

@[simp] theorem push_link (l : IrLink) (w : FrameWord) : (push l w).link = l.link := by
  unfold push; split <;> rfl
@[simp] theorem push_edgeEn (l : IrLink) (w : FrameWord) : (push l w).edgeEn = l.edgeEn := by
  unfold push; split <;> rfl
@[simp] theorem push_carrierOn (l : IrLink) (w : FrameWord) : (push l w).carrierOn = l.carrierOn := by
  unfold push; split <;> rfl
@[simp] theorem push_tmrCnt (l : IrLink) (w : FrameWord) : (push l w).tmrCnt = l.tmrCnt := by
  unfold push; split <;> rfl
@[simp] theorem push_tmrPer (l : IrLink) (w : FrameWord) : (push l w).tmrPer = l.tmrPer := by
  unfold push; split <;> rfl
@[simp] theorem push_measCnt (l : IrLink) (w : FrameWord) : (push l w).measCnt = l.measCnt := by
  unfold push; split <;> rfl
@[simp] theorem push_planIdx (l : IrLink) (w : FrameWord) : (push l w).planIdx = l.planIdx := by
  unfold push; split <;> rfl
@[simp] theorem push_plan (l : IrLink) (w : FrameWord) : (push l w).plan = l.plan := by
  unfold push; split <;> rfl
@[simp] theorem push_accN (l : IrLink) (w : FrameWord) : (push l w).accN = l.accN := by
  unfold push; split <;> rfl
@[simp] theorem push_accBits (l : IrLink) (w : FrameWord) : (push l w).accBits = l.accBits := by
  unfold push; split <;> rfl
@[simp] theorem push_tail (l : IrLink) (w : FrameWord) : (push l w).tail = l.tail := by
  unfold push; split <;> rfl
@[simp] theorem push_edgeLatched (l : IrLink) (w : FrameWord) : (push l w).edgeLatched = l.edgeLatched := by
  unfold push; split <;> rfl

/-! ### `accumulate` and `receiveSymbol` (R104, R110, R111) -/

@[simp] theorem accumulate_link (l : IrLink) (b : Bool) : (accumulate l b).link = l.link := by
  simp only [accumulate]; split <;> simp
@[simp] theorem accumulate_edgeEn (l : IrLink) (b : Bool) : (accumulate l b).edgeEn = l.edgeEn := by
  simp only [accumulate]; split <;> simp
@[simp] theorem accumulate_carrierOn (l : IrLink) (b : Bool) : (accumulate l b).carrierOn = l.carrierOn := by
  simp only [accumulate]; split <;> simp
@[simp] theorem accumulate_tmrCnt (l : IrLink) (b : Bool) : (accumulate l b).tmrCnt = l.tmrCnt := by
  simp only [accumulate]; split <;> simp
@[simp] theorem accumulate_tmrPer (l : IrLink) (b : Bool) : (accumulate l b).tmrPer = l.tmrPer := by
  simp only [accumulate]; split <;> simp
@[simp] theorem accumulate_measCnt (l : IrLink) (b : Bool) : (accumulate l b).measCnt = l.measCnt := by
  simp only [accumulate]; split <;> simp
@[simp] theorem accumulate_planIdx (l : IrLink) (b : Bool) : (accumulate l b).planIdx = l.planIdx := by
  simp only [accumulate]; split <;> simp
@[simp] theorem accumulate_plan (l : IrLink) (b : Bool) : (accumulate l b).plan = l.plan := by
  simp only [accumulate]; split <;> simp
@[simp] theorem accumulate_tail (l : IrLink) (b : Bool) : (accumulate l b).tail = l.tail := by
  simp only [accumulate]; split <;> simp
@[simp] theorem accumulate_edgeLatched (l : IrLink) (b : Bool) : (accumulate l b).edgeLatched = l.edgeLatched := by
  simp only [accumulate]; split <;> simp

@[simp] theorem receiveSymbol_link (l : IrLink) (y : Symbol) : (receiveSymbol l y).link = l.link := by
  cases y <;> simp [receiveSymbol]
@[simp] theorem receiveSymbol_edgeEn (l : IrLink) (y : Symbol) : (receiveSymbol l y).edgeEn = l.edgeEn := by
  cases y <;> simp [receiveSymbol]
@[simp] theorem receiveSymbol_carrierOn (l : IrLink) (y : Symbol) : (receiveSymbol l y).carrierOn = l.carrierOn := by
  cases y <;> simp [receiveSymbol]
@[simp] theorem receiveSymbol_tmrCnt (l : IrLink) (y : Symbol) : (receiveSymbol l y).tmrCnt = l.tmrCnt := by
  cases y <;> simp [receiveSymbol]
@[simp] theorem receiveSymbol_tmrPer (l : IrLink) (y : Symbol) : (receiveSymbol l y).tmrPer = l.tmrPer := by
  cases y <;> simp [receiveSymbol]
@[simp] theorem receiveSymbol_measCnt (l : IrLink) (y : Symbol) : (receiveSymbol l y).measCnt = l.measCnt := by
  cases y <;> simp [receiveSymbol]
@[simp] theorem receiveSymbol_planIdx (l : IrLink) (y : Symbol) : (receiveSymbol l y).planIdx = l.planIdx := by
  cases y <;> simp [receiveSymbol]
@[simp] theorem receiveSymbol_plan (l : IrLink) (y : Symbol) : (receiveSymbol l y).plan = l.plan := by
  cases y <;> simp [receiveSymbol]
@[simp] theorem receiveSymbol_tail (l : IrLink) (y : Symbol) : (receiveSymbol l y).tail = l.tail := by
  cases y <;> simp [receiveSymbol]
@[simp] theorem receiveSymbol_edgeLatched (l : IrLink) (y : Symbol) : (receiveSymbol l y).edgeLatched = l.edgeLatched := by
  cases y <;> simp [receiveSymbol]

/-! ### `edge` (R104) -/

@[simp] theorem edge_link (p : Config.Params) (l : IrLink) : (edge p l).link = .receiving := by simp [edge]
@[simp] theorem edge_edgeEn (p : Config.Params) (l : IrLink) : (edge p l).edgeEn = l.edgeEn := by simp [edge]
@[simp] theorem edge_carrierOn (p : Config.Params) (l : IrLink) : (edge p l).carrierOn = l.carrierOn := by simp [edge]
@[simp] theorem edge_tmrCnt (p : Config.Params) (l : IrLink) : (edge p l).tmrCnt = 0 := by simp [edge]
@[simp] theorem edge_tmrPer (p : Config.Params) (l : IrLink) : (edge p l).tmrPer = l.tmrPer := by simp [edge]
@[simp] theorem edge_measCnt (p : Config.Params) (l : IrLink) : (edge p l).measCnt = 0 := by simp [edge]
@[simp] theorem edge_planIdx (p : Config.Params) (l : IrLink) : (edge p l).planIdx = l.planIdx := by simp [edge]
@[simp] theorem edge_plan (p : Config.Params) (l : IrLink) : (edge p l).plan = l.plan := by simp [edge]
@[simp] theorem edge_tail (p : Config.Params) (l : IrLink) : (edge p l).tail = l.tail := by simp [edge]
@[simp] theorem edge_edgeLatched (p : Config.Params) (l : IrLink) : (edge p l).edgeLatched = l.edgeLatched := by simp [edge]
/-! ### What a bit and an edge do -/

/-- What is pushed where does not depend on the accumulator (R117). -/
theorem push_accumulator (l : IrLink) (bits : BitVec 32) (n : BitVec 6) (w : FrameWord) :
    push { l with accBits := bits, accN := n } w = { push l w with accBits := bits, accN := n } := by
  unfold push
  show (if ringFull l then _ else _) = _
  split <;> rfl

/-- A data bit that does not complete a frame is stored and counted (R110). -/
theorem accumulate_of_lt {l : IrLink} (b : Bool) (h : l.accN.toNat < 31) :
    accumulate l b = { l with accBits := setBit l.accBits l.accN b, accN := l.accN + 1 } := by
  have : (l.accN + 1).toNat ≠ Config.frameBits := by
    rw [BitVec.toNat_add]; simp [Config.frameBits]; omega
  simp only [accumulate, this, if_false]

/-- The 32nd data bit is stored, the frame is pushed, and the accumulator is cleared (R110). -/
theorem accumulate_of_last {l : IrLink} (b : Bool) (h : l.accN.toNat = 31) :
    accumulate l b = clearAccumulator (push l (setBit l.accBits l.accN b)) := by
  have : (l.accN + 1).toNat = Config.frameBits := by
    rw [BitVec.toNat_add, h]; rfl
  simp only [accumulate, this, if_true]
  rw [push_accumulator]
  rfl

/-- All that a data bit can do to the ring: nothing, or one entry at the producer index (R110, R117). -/
theorem accumulate_ring (l : IrLink) (b : Bool) :
    ((accumulate l b).ring = l.ring ∧ (accumulate l b).head = l.head) ∨
      (l.head + 1 ≠ l.tail ∧ (accumulate l b).head = l.head + 1 ∧
        ∃ w, (accumulate l b).ring = writeRing l.ring l.head.toNat w) := by
  simp only [accumulate]
  split
  · rw [push_accumulator]
    by_cases h : l.head + 1 = l.tail
    · rw [push_of_full _ h]; exact .inl ⟨rfl, rfl⟩
    · rw [push_of_room _ h]; exact .inr ⟨h, rfl, _, rfl⟩
  · exact .inl ⟨rfl, rfl⟩

/-- All that an edge can do to the ring (R104, R117). -/
theorem edge_ring (p : Config.Params) (l : IrLink) :
    ((edge p l).ring = l.ring ∧ (edge p l).head = l.head) ∨
      (l.head + 1 ≠ l.tail ∧ (edge p l).head = l.head + 1 ∧
        ∃ w, (edge p l).ring = writeRing l.ring l.head.toNat w) := by
  unfold edge
  cases classifySymbol p l.measCnt
  · exact accumulate_ring _ false
  · exact accumulate_ring _ true
  all_goals exact .inl ⟨rfl, rfl⟩

/-- An edge that measures 0 µs clears the accumulator (R82, R111). -/
theorem edge_of_zero (p : Config.Params) {l : IrLink} (h : l.measCnt = 0) :
    edge p l = clearAccumulator { l with measCnt := 0, tmrCnt := 0, link := .receiving } := by
  simp [edge, classifySymbol, h, receiveSymbol]

/-- The second and later edges of one µs clear the accumulator and change nothing more (R101). -/
theorem edges_of_many (p : Config.Params) (e : Nat) {l : IrLink} (h : l.edgeEn = true) :
    edges p (e + 2) l = clearAccumulator (edge p l) := by
  have step : ∀ k : IrLink, k.edgeEn = true → k.measCnt = 0 → k.tmrCnt = 0 → k.link = .receiving →
      edge p k = clearAccumulator k := by
    intro k _ h1 h2 h3
    rw [edge_of_zero p h1]
    cases k
    simp_all
  have many : ∀ n (k : IrLink), k.edgeEn = true → k.measCnt = 0 → k.tmrCnt = 0 → k.link = .receiving →
      edges p (n + 1) k = clearAccumulator k := by
    intro n
    induction n with
    | zero => intro k h0 h1 h2 h3; simp [edges, edgeInput, h0, step k h0 h1 h2 h3]
    | succ n ih =>
      intro k h0 h1 h2 h3
      rw [edges, edgeInput, if_pos h0, step k h0 h1 h2 h3, ih (clearAccumulator k) h0 h1 h2 h3]
      rfl
  rw [edges, edgeInput, if_pos h]
  exact many e _ (by simpa using h) (by simp) (by simp) (by simp)

@[simp] theorem edges_zero (p : Config.Params) (l : IrLink) : edges p 0 l = l := rfl

theorem edges_one (p : Config.Params) {l : IrLink} (h : l.edgeEn = true) : edges p 1 l = edge p l := by
  simp [edges, edgeInput, h]

/-- All that actioned edges can do: one edge, or one edge and a cleared accumulator (R101). -/
theorem edges_enabled (p : Config.Params) {e : Nat} (he : 0 < e) {l : IrLink} (h : l.edgeEn = true) :
    edges p e l = edge p l ∨ edges p e l = clearAccumulator (edge p l) := by
  match e, he with
  | 1, _ => exact .inl (edges_one p h)
  | e + 2, _ => exact .inr (edges_of_many p e h)

/-! ### The time step (R101, R106, R107) -/

/-- A µs without an actioned edge and without an expiry counts. -/
theorem tick_zero (p : Config.Params) {l : IrLink} (h : l.tmrCnt + 1 ≠ l.tmrPer) :
    tick p 0 l = passMicrosecond p l := by
  rw [tick, edges_zero, checkExpiry]
  exact if_neg h

theorem tick_zero_expires (p : Config.Params) {l : IrLink} (h : l.tmrCnt + 1 = l.tmrPer) :
    tick p 0 l = expire p { passMicrosecond p l with tmrCnt := 0 } := by
  rw [tick, edges_zero, checkExpiry]
  exact if_pos h

/-- An actioned edge keeps the timer from expiring (R102). -/
theorem tick_edges (p : Config.Params) {e : Nat} (he : 0 < e) {l : IrLink} (h : l.edgeEn = true) (hp : l.tmrPer ≠ 0) :
    tick p e l = edges p e (passMicrosecond p l) := by
  have h' : (passMicrosecond p l).edgeEn = true := h
  have h0 : (0 : BitVec 16) ≠ l.tmrPer := fun h => hp h.symm
  rw [tick, checkExpiry]
  rcases edges_enabled p he h' with hh | hh <;> rw [hh, if_neg] <;> simpa using h0

/-- What an expiry does in each link state (R107). -/
theorem expire_receiving (p : Config.Params) {l : IrLink} (h : l.link = .receiving) :
    expire p l = { l with link := .clearToSend } := by simp [expire, h]

theorem expire_clearToSend (p : Config.Params) {l : IrLink} (h : l.link = .clearToSend) : expire p l = l := by
  simp [expire, h]

theorem expire_transmitting (p : Config.Params) {l : IrLink} (h : l.link = .transmitting) :
    expire p l = player p l := by simp [expire, h]

/-- Without an actioned edge a `TICK` differs from a `TICK` without edges by the remembered edge (R103). -/
theorem tick_no_edge (p : Config.Params) {e : Nat} {l : IrLink} (h : e = 0 ∨ l.edgeEn = false) :
    tick p e l = tick p 0 { l with edgeLatched := l.edgeLatched || (p.edgeLatchTx && decide (0 < e)) } := by
  rcases h with rfl | h
  · simp
  · rw [tick, edges_masked p e (l := passMicrosecond p l) h]
    rfl

/-- All that a `TICK` without edges can do (R101, R106). -/
theorem tick_zero_cases (p : Config.Params) (l : IrLink) :
    (l.tmrCnt + 1 ≠ l.tmrPer ∧ tick p 0 l = passMicrosecond p l) ∨
      (l.tmrCnt + 1 = l.tmrPer ∧ tick p 0 l = expire p { passMicrosecond p l with tmrCnt := 0 }) := by
  by_cases h : l.tmrCnt + 1 = l.tmrPer
  · exact .inr ⟨h, tick_zero_expires p h⟩
  · exact .inl ⟨h, tick_zero p h⟩

/-- All that the end of a transmission can do (R95, R96). -/
theorem playerDone_cases (p : Config.Params) (l : IrLink) :
    ((p.edgeLatchTx && l.edgeLatched) = false ∧ playerDone p l = endTransmission l) ∨
      ((p.edgeLatchTx && l.edgeLatched) = true ∧
        playerDone p l = edge p { endTransmission l with edgeLatched := false }) := by
  cases h : p.edgeLatchTx && l.edgeLatched
  · exact .inl ⟨rfl, if_neg (by simp [h])⟩
  · exact .inr ⟨rfl, if_pos (by simp [h])⟩

/-- Before the last interval the player moves to the next one (R94). -/
theorem player_of_lt (p : Config.Params) {l : IrLink} (h : l.planIdx.toNat < 66) :
    player p l = playInterval { l with planIdx := l.planIdx + 1 } := by
  have : (l.planIdx + 1).toNat < Config.planLen := by
    rw [BitVec.toNat_add]; simp [Config.planLen]; omega
  exact if_pos this

theorem player_of_last (p : Config.Params) {l : IrLink} (h : l.planIdx = 66) :
    player p l = playerDone p { l with planIdx := 67 } := by
  simp [player, h, Config.planLen]

/-- All that the player can do (R94, R95). -/
theorem player_cases (p : Config.Params) (l : IrLink) :
    ((l.planIdx + 1).toNat < 67 ∧ player p l = playInterval { l with planIdx := l.planIdx + 1 }) ∨
      (67 ≤ (l.planIdx + 1).toNat ∧ player p l = playerDone p { l with planIdx := l.planIdx + 1 }) := by
  by_cases h : (l.planIdx + 1).toNat < 67
  · exact .inl ⟨h, if_pos h⟩
  · exact .inr ⟨Nat.le_of_not_lt h, if_neg h⟩

/-! ### The ring, the plan and the consumer index in a `TICK` (R99, R117, R119) -/

/-- `m` follows `l` with the plan and the consumer index as they were and at most one packet pushed. -/
def PushesAtMostOne (l m : IrLink) : Prop :=
  m.plan = l.plan ∧ m.tail = l.tail ∧
    ((m.ring = l.ring ∧ m.head = l.head) ∨
      (l.head + 1 ≠ l.tail ∧ m.head = l.head + 1 ∧ ∃ w, m.ring = writeRing l.ring l.head.toNat w))

theorem edge_pushes (p : Config.Params) (l : IrLink) : PushesAtMostOne l (edge p l) :=
  ⟨by simp, by simp, edge_ring p l⟩

theorem player_pushes (p : Config.Params) (l : IrLink) : PushesAtMostOne l (player p l) := by
  rcases player_cases p l with ⟨-, h⟩ | ⟨-, h⟩ <;> rw [h]
  · exact ⟨rfl, rfl, .inl ⟨rfl, rfl⟩⟩
  · rcases playerDone_cases p { l with planIdx := l.planIdx + 1 } with ⟨-, h⟩ | ⟨-, h⟩ <;> rw [h]
    · exact ⟨rfl, rfl, .inl ⟨rfl, rfl⟩⟩
    · exact edge_pushes p { endTransmission { l with planIdx := l.planIdx + 1 } with edgeLatched := false }

theorem expire_pushes (p : Config.Params) (l : IrLink) : PushesAtMostOne l (expire p l) := by
  unfold expire
  split
  · exact ⟨rfl, rfl, .inl ⟨rfl, rfl⟩⟩
  · exact ⟨rfl, rfl, .inl ⟨rfl, rfl⟩⟩
  · exact player_pushes p l

theorem tick_pushes (p : Config.Params) (e : Nat) (l : IrLink) : PushesAtMostOne l (tick p e l) := by
  by_cases he : e = 0 ∨ l.edgeEn = false
  · rw [tick_no_edge p he]
    rcases tick_zero_cases p { l with edgeLatched := l.edgeLatched || (p.edgeLatchTx && decide (0 < e)) } with
      ⟨-, h⟩ | ⟨-, h⟩ <;> rw [h]
    · exact ⟨rfl, rfl, .inl ⟨rfl, rfl⟩⟩
    · exact expire_pushes p _
  · have h0 : 0 < e := by omega
    have h1 : (passMicrosecond p l).edgeEn = true := by simpa using fun h => he (.inr h)
    have hk : PushesAtMostOne l (edges p e (passMicrosecond p l)) := by
      rcases edges_enabled p h0 h1 with h | h <;> rw [h]
      · exact edge_pushes p (passMicrosecond p l)
      · exact edge_pushes p (passMicrosecond p l)
    have hl : (edges p e (passMicrosecond p l)).link = .receiving := by
      rcases edges_enabled p h0 h1 with h | h <;> rw [h] <;> simp
    rw [tick, checkExpiry, expire]
    simp only [hl]
    split
    · exact hk
    · exact hk

end Sys2Proof.Machine
end

