-- ==== Sys2Proof/Laws/Frames.lean ====
section
/-!
SUPPORT. For each operation that may raise, all that it can do; then what every operation leaves alone.
-/

namespace Sys2Proof.Machine

/-! ## The operations that may raise (R152) -/

theorem exec_ainit_next {s t : State} (h : exec .ainit s = .next t) :
    (∃ a, initAlarm s.params s.alarm = .ok a ∧ t = { s with alarm := a, out := ⟨none, .none⟩ }) ∨
      ∃ info, initAlarm s.params s.alarm = .error info ∧ t = raise s info (encode .ainit) := by
  have h0 := exec_next_fault h
  cases hi : initAlarm s.params s.alarm with
  | ok a => rw [exec_ainit_ok h0 hi] at h; cases h; exact .inl ⟨a, rfl, rfl⟩
  | error info => rw [exec_ainit_error h0 hi] at h; cases h; exact .inr ⟨info, rfl, rfl⟩

theorem exec_aserv_next {s t : State} (h : exec .aserv s = .next t) :
    (∃ e a, serve s.params s.alarm = .ok (e, a) ∧
        t = { s with alarm := a, out := ⟨some e.code.toNat, e⟩ }) ∨
      ∃ info, serve s.params s.alarm = .error info ∧ t = raise s info (encode .aserv) := by
  have h0 := exec_next_fault h
  cases hi : serve s.params s.alarm with
  | ok r => obtain ⟨e, a⟩ := r; rw [exec_aserv_ok h0 hi] at h; cases h; exact .inl ⟨e, a, rfl, rfl⟩
  | error info => rw [exec_aserv_error h0 hi] at h; cases h; exact .inr ⟨info, rfl, rfl⟩

theorem exec_reset_next {s t : State} (h : exec .reset s = .next t) :
    (∃ a, boot s.params (resetScheduler s.alarm) = .ok a ∧
        t = { s with ir := resetLink s.draws, alarm := a, draws := s.draws + 1, out := ⟨none, .none⟩ }) ∨
      ∃ info, boot s.params (resetScheduler s.alarm) = .error info ∧ t = raise s info (encode .reset) := by
  have h0 := exec_next_fault h
  cases hi : boot s.params (resetScheduler s.alarm) with
  | ok a => rw [exec_reset_ok h0 hi] at h; cases h; exact .inl ⟨a, rfl, rfl⟩
  | error info => rw [exec_reset_error h0 hi] at h; cases h; exact .inr ⟨info, rfl, rfl⟩

theorem exec_aset_next {s t : State} {day secs : Nat} (h : exec (.aset day secs) s = .next t) :
    (day < 7 ∧ secs < 86400 ∧
        t = { s with
          alarm := { s.alarm with
            table := writeTable s.alarm.table day (BitVec.ofNat 17 secs)
            cell := writeCell s.alarm.cell day (BitVec.ofNat 16 (secs / s.params.cellUnitS)) }
          out := ⟨none, .none⟩ }) ∨
      ((7 ≤ day ∨ 86400 ≤ secs) ∧ t = raise s (.range [day, secs]) (encode (.aset day secs))) := by
  have h0 := exec_next_fault h
  by_cases hd : 7 ≤ day ∨ 86400 ≤ secs
  · rw [exec_aset_range h0 hd] at h; cases h; exact .inr ⟨hd, rfl⟩
  · rw [exec_aset h0 (by omega) (by omega)] at h; cases h; exact .inl ⟨by omega, by omega, rfl⟩

theorem exec_aget_next {s t : State} {day : Nat} (h : exec (.aget day) s = .next t) :
    (day < 7 ∧ t = { s with out := ⟨some (readTable s.alarm.table day).toNat, .none⟩ }) ∨
      (7 ≤ day ∧ t = raise s (.range [day]) (encode (.aget day))) := by
  have h0 := exec_next_fault h
  by_cases hd : 7 ≤ day
  · rw [exec_aget_range h0 hd] at h; cases h; exact .inr ⟨hd, rfl⟩
  · rw [exec_aget h0 (by omega)] at h; cases h; exact .inl ⟨by omega, rfl⟩

theorem exec_tset_next {s t : State} {v : Nat} (h : exec (.tset v) s = .next t) :
    (v < 2 ^ s.params.cntW ∧ t = { s with alarm := { s.alarm with rtcCnt := v }, out := ⟨none, .none⟩ }) ∨
      (2 ^ s.params.cntW ≤ v ∧ t = raise s (.range [v]) (encode (.tset v))) := by
  have h0 := exec_next_fault h
  by_cases hv : v < 2 ^ s.params.cntW
  · rw [exec_tset h0 hv] at h; cases h; exact .inl ⟨hv, rfl⟩
  · rw [exec_tset_range h0 (Nat.le_of_not_lt hv)] at h; cases h; exact .inr ⟨Nat.le_of_not_lt hv, rfl⟩

theorem exec_send_next {s t : State} {a : BitVec 16} {c : BitVec 8} (h : exec (.send a c) s = .next t) :
    (s.ir.link = .clearToSend ∧
        t = { s with ir := startTransmission s.params (frameWord a c) s.ir, out := ⟨none, .none⟩ }) ∨
      (s.ir.link ≠ .clearToSend ∧ t = s) := by
  have h0 := exec_next_fault h
  by_cases hl : s.ir.link = .clearToSend
  · rw [exec_send h0 hl] at h; cases h; exact .inl ⟨hl, rfl⟩
  · rw [exec_send_held h0 hl] at h; cases h; exact .inr ⟨hl, rfl⟩

theorem exec_recv_next {s t : State} (h : exec .recv s = .next t) :
    (s.ir.head = s.ir.tail ∧ t = { s with draws := t.draws, out := t.out }) ∨
      (s.ir.head ≠ s.ir.tail ∧
        t = { s with
          ir := { s.ir with tail := s.ir.tail + 1 }
          out := ⟨some (readRing s.ir.ring s.ir.tail.toNat).toNat, .none⟩ }) := by
  have h0 := exec_next_fault h
  by_cases hl : s.ir.head = s.ir.tail
  · rw [exec_recv_empty h0 (by simpa [ringEmpty] using hl)] at h; cases h; exact .inl ⟨hl, rfl⟩
  · rw [exec_recv h0 (by simpa [ringEmpty] using hl)] at h; cases h; exact .inr ⟨hl, rfl⟩

/-! ## All that the scheduler's parts can do -/

/-- All that `AINIT` can do to the record: it writes five fields (R130). -/
theorem initAlarm_next {p : Config.Params} {a b : Scheduler} (h : initAlarm p a = .ok b) :
    b = { a with
      curDay := b.curDay, almPend := b.almPend, almEn := b.almEn, almTgt := b.almTgt, isSunrise := b.isSunrise } ∧
      b.almTgt < 2 ^ p.cntW ∧ b.almEn = !b.almPend := by
  rw [initAlarm_eq] at h
  obtain ⟨ht, rfl⟩ := arm_next h
  exact ⟨rfl, ht, by simp⟩

/-- Serving a pending firing is arming one target, from a record with nothing pending (R136 to R138). -/
theorem serve_pending (p : Config.Params) {a : Scheduler} (h : a.almPend = true) :
    ∃ target event day sun,
      serve p a =
        (arm p target { a with almPend := false, curDay := day, isSunrise := sun }).map fun b => (event, b) := by
  cases hs : a.isSunrise with
  | true => exact ⟨_, _, _, _, serve_sunrise p h hs⟩
  | false => exact ⟨_, _, _, _, serve_rollover p h hs⟩

/-- All that `ASERV` can do to the record (R136 to R138). -/
theorem serve_next {p : Config.Params} {a b : Scheduler} {e : AlarmEvent} (h : serve p a = .ok (e, b)) :
    (a.almPend = false ∧ b = a ∧ e = .none) ∨
      (a.almPend = true ∧
        b = { a with
          curDay := b.curDay, almPend := b.almPend, almEn := b.almEn, almTgt := b.almTgt, isSunrise := b.isSunrise } ∧
        b.almTgt < 2 ^ p.cntW ∧ b.almEn = !b.almPend) := by
  cases hp : a.almPend with
  | false => rw [serve_of_idle p hp] at h; cases h; exact .inl ⟨rfl, rfl, rfl⟩
  | true =>
    obtain ⟨target, event, day, sun, hs⟩ := serve_pending p hp
    rw [hs] at h
    cases ha : arm p target { a with almPend := false, curDay := day, isSunrise := sun } with
    | error info => rw [ha] at h; cases h
    | ok c =>
      rw [ha] at h
      cases h
      obtain ⟨ht, rfl⟩ := arm_next ha
      exact .inr ⟨rfl, rfl, ht, by simp⟩

/-- All that the boot can do: with every cell legal, it loads the table and runs `AINIT` (R172). -/
theorem boot_next {p : Config.Params} {a b : Scheduler} (h : boot p a = .ok b) :
    (∀ i < 7, (readCell a.cell i).toNat ≤ 1439) ∧ initAlarm p (loadTable p a) = .ok b := by
  rw [boot] at h
  split at h
  · cases h
  · rename_i hb
    refine ⟨fun i hi => ?_, h⟩
    have := List.find?_eq_none.1 hb i (by simpa using hi)
    simpa using this

/-- Why the boot raises (R172). -/
theorem boot_raises {p : Config.Params} {a : Scheduler} {info : FaultInfo} (h : boot p a = .error info) :
    (∃ i < 7, 1439 < (readCell a.cell i).toNat ∧ info = .cellRange i (readCell a.cell i).toNat) ∨
      initAlarm p (loadTable p a) = .error info := by
  rw [boot] at h
  split at h
  · rename_i i hb
    have h1 := List.find?_some hb
    have h2 := List.mem_of_find?_eq_some hb
    cases h
    exact .inl ⟨i, by simpa using h2, by simpa using h1, rfl⟩
  · exact .inr h

/-- Why `AINIT` raises (R135). -/
theorem initAlarm_raises {p : Config.Params} {a : Scheduler} {info : FaultInfo} (h : initAlarm p a = .error info) :
    ∃ target, 2 ^ p.cntW ≤ target ∧ info = .armOvf target := by
  rw [initAlarm_eq] at h
  exact ⟨_, arm_raises h⟩

/-- Why `ASERV` raises (R135). -/
theorem serve_raises {p : Config.Params} {a : Scheduler} {info : FaultInfo} (h : serve p a = .error info) :
    ∃ target, 2 ^ p.cntW ≤ target ∧ info = .armOvf target := by
  cases hp : a.almPend with
  | false => rw [serve_of_idle p hp] at h; cases h
  | true =>
    obtain ⟨target, event, day, sun, hs⟩ := serve_pending p hp
    rw [hs] at h
    cases ha : arm p target { a with almPend := false, curDay := day, isSunrise := sun } with
    | error info => rw [ha] at h; cases h; exact ⟨_, arm_raises ha⟩
    | ok c => rw [ha] at h; cases h

/-! ## What the operations leave alone -/

/-- The operations that write no field of the IR Link record. -/
theorem exec_ir {i : Instr} {s t : State} (h : exec i s = .next t) (h1 : i ≠ .reset) (h2 : ∀ e, i ≠ .tick e)
    (h3 : ∀ a c, i ≠ .send a c) (h4 : i ≠ .recv) : t.ir = s.ir := by
  have h0 := exec_next_fault h
  cases i with
  | reset => exact absurd rfl h1
  | tick e => exact absurd rfl (h2 e)
  | send a c => exact absurd rfl (h3 a c)
  | recv => exact absurd rfl h4
  | sec => rw [exec_sec h0] at h; cases h; rfl
  | lstat => rw [exec_lstat h0] at h; cases h; rfl
  | classify dt => rw [exec_classify h0] at h; cases h; rfl
  | ainit => obtain ⟨a, -, rfl⟩ | ⟨info, -, rfl⟩ := exec_ainit_next h <;> rfl
  | aserv => obtain ⟨e, a, -, rfl⟩ | ⟨info, -, rfl⟩ := exec_aserv_next h <;> rfl
  | aset day secs => obtain ⟨-, -, rfl⟩ | ⟨-, rfl⟩ := exec_aset_next h <;> rfl
  | aget day => obtain ⟨-, rfl⟩ | ⟨-, rfl⟩ := exec_aget_next h <;> rfl
  | tset v => obtain ⟨-, rfl⟩ | ⟨-, rfl⟩ := exec_tset_next h <;> rfl
  | tget => rw [exec_tget h0] at h; cases h; rfl

/-- The operations that write no field of the Alarm Scheduler record. -/
theorem exec_alarm {i : Instr} {s t : State} (h : exec i s = .next t) (h1 : i ≠ .reset) (h2 : i ≠ .sec)
    (h3 : i ≠ .ainit) (h4 : i ≠ .aserv) (h5 : ∀ d v, i ≠ .aset d v) (h6 : ∀ v, i ≠ .tset v) : t.alarm = s.alarm := by
  have h0 := exec_next_fault h
  cases i with
  | reset => exact absurd rfl h1
  | sec => exact absurd rfl h2
  | ainit => exact absurd rfl h3
  | aserv => exact absurd rfl h4
  | aset day secs => exact absurd rfl (h5 day secs)
  | tset v => exact absurd rfl (h6 v)
  | tick e => rw [exec_tick h0] at h; cases h; rfl
  | send a c => obtain ⟨-, rfl⟩ | ⟨-, rfl⟩ := exec_send_next h <;> rfl
  | recv => obtain ⟨-, h⟩ | ⟨-, h⟩ := exec_recv_next h <;> rw [h]
  | lstat => rw [exec_lstat h0] at h; cases h; rfl
  | classify dt => rw [exec_classify h0] at h; cases h; rfl
  | aget day => obtain ⟨-, rfl⟩ | ⟨-, rfl⟩ := exec_aget_next h <;> rfl
  | tget => rw [exec_tget h0] at h; cases h; rfl

end Sys2Proof.Machine
end

