-- ==== Sys2Proof/Laws/PerInstr.lean ====
section
/-!
SUPPORT. One lemma per instruction, for statements about all of them: the fields of an operation's descriptor hold its
opcode, nothing, and its two operands (`spec/30_encoding.md` rules R74 to R76).
-/

namespace Sys2Proof.Laws

/-! ## The fields of a descriptor (R74) -/

theorem descriptor_getLsbD (op : BitVec 8) (a : BitVec 16) (b : BitVec 32) (i : Nat) :
    (descriptor op a b).getLsbD i =
      if i < 32 then b.getLsbD i else if i < 48 then a.getLsbD (i - 32) else op.getLsbD (i - 56) && decide (56 ≤ i) := by
  show (op ++ (0 : BitVec 8) ++ a ++ b : BitVec (8 + 8 + 16 + 32)).getLsbD i = _
  simp only [BitVec.getLsbD_append]
  by_cases h1 : i < 32
  · simp [h1]
  · by_cases h2 : i < 48
    · simp [h1, h2, show i - 32 < 16 by omega]
    · by_cases h3 : i < 56
      · simp [h1, h2, show ¬ i - 32 < 16 by omega, show i - 32 - 16 < 8 by omega, h3]
      · simp [h1, h2, show ¬ i - 32 < 16 by omega, show ¬ i - 32 - 16 < 8 by omega, show 56 ≤ i by omega,
          show i - 32 - 16 - 8 = i - 56 by omega]

theorem opField_descriptor (op : BitVec 8) (a : BitVec 16) (b : BitVec 32) : opField (descriptor op a b) = op := by
  refine BitVec.eq_of_getLsbD_eq fun i hi => ?_
  rw [opField, BitVec.getLsbD_extractLsb', descriptor_getLsbD]
  simp [hi, show ¬ 56 + i < 32 by omega, show ¬ 56 + i < 48 by omega]

theorem rsvField_descriptor (op : BitVec 8) (a : BitVec 16) (b : BitVec 32) : rsvField (descriptor op a b) = 0 := by
  refine BitVec.eq_of_getLsbD_eq fun i hi => ?_
  rw [rsvField, BitVec.getLsbD_extractLsb', descriptor_getLsbD]
  simp [show ¬ 48 + i < 32 by omega, show ¬ 56 ≤ 48 + i by omega]

theorem aField_descriptor (op : BitVec 8) (a : BitVec 16) (b : BitVec 32) : aField (descriptor op a b) = a := by
  refine BitVec.eq_of_getLsbD_eq fun i hi => ?_
  rw [aField, BitVec.getLsbD_extractLsb', descriptor_getLsbD]
  simp [hi, show ¬ 32 + i < 32 by omega, show 32 + i < 48 by omega]

theorem bField_descriptor (op : BitVec 8) (a : BitVec 16) (b : BitVec 32) : bField (descriptor op a b) = b := by
  refine BitVec.eq_of_getLsbD_eq fun i hi => ?_
  rw [bField, BitVec.getLsbD_extractLsb', descriptor_getLsbD]
  simp [hi]

/-- Each field of the descriptor of `i` holds what R74 to R76 put there. -/
def EncodingFields.Statement (i : Instr) : Prop :=
  opField (encode i) = opcode i ∧ rsvField (encode i) = 0 ∧ aField (encode i) = operandA i ∧
    bField (encode i) = operandB i

/-- Every descriptor that the encoder builds has its fields in their places. -/
theorem encodingFields_of_encode (i : Instr) : EncodingFields.Statement i :=
  ⟨opField_descriptor _ _ _, rsvField_descriptor _ _ _, aField_descriptor _ _ _, bField_descriptor _ _ _⟩

theorem EncodingFields.reset : EncodingFields.Statement .reset := encodingFields_of_encode _
theorem EncodingFields.tick (e : Nat) : EncodingFields.Statement (.tick e) := encodingFields_of_encode _
theorem EncodingFields.sec : EncodingFields.Statement .sec := encodingFields_of_encode _
theorem EncodingFields.send (address : BitVec 16) (command : BitVec 8) :
    EncodingFields.Statement (.send address command) := encodingFields_of_encode _
theorem EncodingFields.recv : EncodingFields.Statement .recv := encodingFields_of_encode _
theorem EncodingFields.lstat : EncodingFields.Statement .lstat := encodingFields_of_encode _
theorem EncodingFields.classify (dt : Nat) : EncodingFields.Statement (.classify dt) := encodingFields_of_encode _
theorem EncodingFields.ainit : EncodingFields.Statement .ainit := encodingFields_of_encode _
theorem EncodingFields.aserv : EncodingFields.Statement .aserv := encodingFields_of_encode _
theorem EncodingFields.aset (day secs : Nat) : EncodingFields.Statement (.aset day secs) := encodingFields_of_encode _
theorem EncodingFields.aget (day : Nat) : EncodingFields.Statement (.aget day) := encodingFields_of_encode _
theorem EncodingFields.tset (v : Nat) : EncodingFields.Statement (.tset v) := encodingFields_of_encode _
theorem EncodingFields.tget : EncodingFields.Statement .tget := encodingFields_of_encode _

end Sys2Proof.Laws
end

