-- ==== Sys2Proof/Laws/Runs.lean ====
section
/-!
SUPPORT. Runs of operations, the timing plan as numbers, and the ring as a queue: the lemmas that statements over many
operations rest on.
-/

namespace Sys2Proof.Machine

/-! ## Runs -/

theorem runOps_cons_next {i : Instr} {s t : State} (is : List Instr) (h : exec i s = .next t) :
    runOps (i :: is) s = runOps is t := by simp [runOps, h]

theorem runOps_append (is js : List Instr) {s t : State} (h : runOps is s = .next t) :
    runOps (is ++ js) s = runOps js t := by
  induction is generalizing s with
  | nil => cases h; rfl
  | cons i is ih =>
    rw [List.cons_append, runOps]
    rw [runOps] at h
    cases hi : exec i s with
    | next u => rw [hi] at h; exact ih h
    | fault r => rw [hi] at h; cases h
    | refused r => rw [hi] at h; cases h

/-- `n` µs without an edge and without an expiry count on both counters and do nothing else (R101). -/
theorem runOps_wait_of_lt (n : Nat) {s : State} (h0 : s.fault = none)
    (hn : s.ir.tmrCnt.toNat + n < s.ir.tmrPer.toNat) :
    ∃ t, runOps (wait n) s = .next t ∧ t.fault = none ∧ t.params = s.params ∧
      t.ir = { s.ir with
        measCnt := (countMeasure s.params)^[n] s.ir.measCnt, tmrCnt := s.ir.tmrCnt + BitVec.ofNat 16 n } := by
  induction n generalizing s with
  | zero => exact ⟨s, rfl, h0, rfl, by simp⟩
  | succ n ih =>
    have hlt := s.ir.tmrPer.isLt
    have hne : s.ir.tmrCnt + 1 ≠ s.ir.tmrPer := by
      intro h
      have := congrArg BitVec.toNat h
      rw [BitVec.toNat_add] at this
      simp at this
      omega
    have h1 := exec_tick h0 0
    rw [tick_zero _ hne] at h1
    obtain ⟨t, a, b, c, d⟩ :=
      ih (s := { s with ir := passMicrosecond s.params s.ir, out := ⟨none, .none⟩ }) h0 (by simp; omega)
    refine ⟨t, ?_, b, c, ?_⟩
    · rw [wait, List.replicate_succ, runOps_cons_next _ h1]
      exact a
    · rw [d]
      simp only [Function.iterate_succ, passMicrosecond, Function.comp]
      congr 1
      apply BitVec.eq_of_toNat_eq
      simp
      omega

/-! ## The timing plan (R67, R88) -/

/-- Every entry of a plan has a sign and is at most 9000 in magnitude (R27, R67). -/
theorem planEntry_bounds {p : Config.Params} (hw : p.wf) (w : FrameWord) (i : Nat) :
    planEntry p w i ≠ 0 ∧ -9000 ≤ planEntry p w i ∧ planEntry p w i ≤ 9000 := by
  obtain ⟨h1, h2, -⟩ := hw
  simp only [Config.zeroUs] at h2
  simp only [planEntry, Config.leaderMarkUs, Config.leaderSpaceUs, Config.stopMarkUs, bitCycle, Config.oneUs,
    Config.zeroUs]
  (repeat' split) <;> omega

/-- Storing an entry in 16 bits loses nothing (R27). -/
theorem readPlan_buildPlan_toInt {p : Config.Params} (hw : p.wf) (w : FrameWord) {i : Nat} (hi : i < 67) :
    (readPlan (buildPlan p w) i).toInt = planEntry p w i := by
  have := planEntry_bounds hw w i
  rw [readPlan_buildPlan _ _ hi, BitVec.toInt_ofInt]
  exact Int.bmod_eq_of_le (by simp; omega) (by simp; omega)

theorem intervalUs_buildPlan {p : Config.Params} (hw : p.wf) (w : FrameWord) {i : Nat} (hi : i < 67) :
    (intervalUs (readPlan (buildPlan p w) i)).toNat = (planEntry p w i).natAbs := by
  have := planEntry_bounds hw w i
  rw [intervalUs, readPlan_buildPlan_toInt hw w hi]
  simp
  omega

theorem planStart_succ (plan : Vector (BitVec 16) Config.planLen) (k : Nat) :
    planStart plan (k + 1) = planStart plan k + (intervalUs (readPlan plan k)).toNat := by
  simp [planStart, List.range_succ]

/-! ## The ring as a queue (R29, R57) -/

/-- The packets by the two indices as 8-bit numbers. -/
theorem packets_eq (l : IrLink) :
    packets l = (List.range (l.head - l.tail).toNat).map fun k => readRing l.ring (l.tail + BitVec.ofNat 8 k).toNat := by
  simp only [packets, ringCount_eq, ringPlace_eq]

theorem packets_length (l : IrLink) : (packets l).length = (l.head - l.tail).toNat := by simp [packets_eq]

/-- The packets depend on the ring and its two indices only. -/
theorem packets_congr {l m : IrLink} (h1 : m.ring = l.ring) (h2 : m.head = l.head) (h3 : m.tail = l.tail) :
    packets m = packets l := by rw [packets_eq, packets_eq, h1, h2, h3]

end Sys2Proof.Machine
end

