-- ==== Sys2Proof/Tests/Slice0.lean ====
section
/-!
SUPPORT. Tests of the model. The expected values come from the spec's vectors (`spec/95_test_vectors.md`), named beside each
test, or from the spec's encoding tables. After them stands, for each statement with hypotheses, a theorem
`witness_<statement>` with concrete states and operands that meet the hypotheses of each of its clauses.
-/

namespace Sys2Proof.Tests

open Sys2Proof.Machine

set_option maxRecDepth 8000

/-! ## Helpers -/

/-- The outcome is a next state in which `p` holds. -/
def nextSat (o : Host.Outcome State Fault Refusal) (p : State → Bool) : Bool :=
  match o with
  | .next t => p t
  | .fault _ => false
  | .refused _ => false

/-- The descriptor decodes to the operation `i`. -/
def decodesTo (d : Descriptor) (i : Instr) : Bool :=
  match decode d with
  | .ok j => j == i
  | .error _ => false

/-- The descriptor is illegal, for the reason `e`. -/
def illegalFor (d : Descriptor) (e : DecodeError) : Bool :=
  match decode d with
  | .ok _ => false
  | .error r => r == e

/-- The machine after reset, with this IR Link record. -/
def withLink (l : IrLink) : State := { State.reset with ir := l }
/-- The machine after reset, with this Alarm Scheduler record. -/
def withAlarm (a : Scheduler) : State := { State.reset with alarm := a }
/-- The machine after reset, with `d` about to be issued by agent `a`. -/
def issuing (a : Agent) (d : Descriptor) : State := issueNext State.reset a d

/-- Link `ClearToSend`, everything else at reset. -/
def clearLink : IrLink := { IrLink.reset with link := .clearToSend }
/-- Right after `SEND 0x1234, 0x56` (program P1, step 4). -/
def sendingLink : IrLink := startTransmission Config.Params.standard (frameWord 0x1234 0x56) clearLink
/-- The last µs of the last interval of that frame (program P1, step 7). -/
def lastLink : IrLink := { sendingLink with planIdx := 66, tmrPer := 560, tmrCnt := 559, carrierOn := true }
/-- Reset values but for the weekly table: Monday 05:00, Wednesday 07:00 (program P3). -/
def weekAlarm : Scheduler :=
  { State.reset.alarm with
    table := #v[18000, 0, 25200, 0, 0, 0, 0], cell := #v[300, 0, 420, 0, 0, 0, 0], almTgt := 18000, isSunrise := true }
/-- Eight-bit seconds counter, so that `TSET` can be out of range (R76). -/
def narrow : State := { State.reset with params := { Config.Params.standard with cntW := 8 } }

/-! ## WellFormed refuses each operand that its field cannot hold (R76) -/

theorem test_wf_tick : ¬ WellFormed (.tick 256) := by decide
theorem test_wf_classify : ¬ WellFormed (.classify (2 ^ 32)) := by decide
theorem test_wf_aset_day : ¬ WellFormed (.aset 8 0) := by decide
theorem test_wf_aset_secs : ¬ WellFormed (.aset 0 (2 ^ 32)) := by decide
theorem test_wf_aget : ¬ WellFormed (.aget 8) := by decide
theorem test_wf_tset : ¬ WellFormed (.tset (2 ^ 32)) := by decide

/-! ## Decoding: one word written out from R74 to R76 for every operation -/

theorem test_decode_reset : decodesTo 0x0100000000000000 .reset = true := by decide           -- V-DE1
theorem test_decode_tick : decodesTo 0x02000000000000FF (.tick 255) = true := by decide
theorem test_decode_sec : decodesTo 0x0300000000000000 .sec = true := by decide
theorem test_decode_send : decodesTo 0x1000123400000056 (.send 0x1234 0x56) = true := by decide -- V-DE3
theorem test_decode_recv : decodesTo 0x1100000000000000 .recv = true := by decide             -- P2, step 3
theorem test_decode_lstat : decodesTo 0x1200000000000000 .lstat = true := by decide
theorem test_decode_classify : decodesTo 0x180000000000044C (.classify 1100) = true := by decide -- V-DE4
theorem test_decode_ainit : decodesTo 0x2000000000000000 .ainit = true := by decide
theorem test_decode_aserv : decodesTo 0x2100000000000000 .aserv = true := by decide           -- P3, step 3
theorem test_decode_aset : decodesTo 0x2200000200006270 (.aset 2 25200) = true := by decide   -- V-DE6
theorem test_decode_aget : decodesTo 0x2300000200000000 (.aget 2) = true := by decide         -- V-DE7
theorem test_decode_tset : decodesTo 0x240000000000464E (.tset 17998) = true := by decide     -- V-DE8
theorem test_decode_tget : decodesTo 0x2500000000000000 .tget = true := by decide
/-- V-DE15: a day of 7 is a legal encoding; the operation raises. -/
theorem test_decode_day7 : decodesTo 0x2200000700000000 (.aset 7 0) = true := by decide

/-- V-DE9 to V-DE14, V-DE17, V-DE18. -/
theorem test_illegal_words :
    (illegalFor 0x0000000000000000 .unassignedOp && illegalFor 0x2600000000000000 .unassignedOp &&
      illegalFor 0x0201000000000000 .reservedField && illegalFor 0x0200000000000100 .mustBeZero &&
      illegalFor 0x1000123400000156 .mustBeZero && illegalFor 0x2200000800000000 .mustBeZero &&
      illegalFor 0x1100000000000001 .mustBeZero && illegalFor 0x2300000200000001 .mustBeZero) = true := by decide

/-- No word belongs to two rows of the opcode table: where both masks are set, the bits of two rows differ. -/
theorem test_rows_disjoint :
    opcodeTable.Pairwise fun r q => r.bits &&& (r.mask &&& q.mask) ≠ q.bits &&& (r.mask &&& q.mask) := by decide

/-- The encoder on the words of V-DE3, V-DE6 and V-DE8. -/
theorem test_encode :
    encode (.send 0x1234 0x56) = 0x1000123400000056 ∧ encode (.aset 2 25200) = 0x2200000200006270 ∧
      encode (.tset 17998) = 0x240000000000464E := by decide

/-- R79: the example lines. -/
theorem test_assembly :
    assembleLine "SEND 0x1234, 0x56".toList = some (.send 0x1234 0x56) ∧
      assembleLine "ASET 0, 18000 ; Monday".toList = some (.aset 0 18000) ∧
      assembleLine "AGET 8".toList = none := by decide

/-- R97: the whole frame of `SEND 0x1234, 0x56` takes 63560 µs; R65: the shortest takes 58060 µs, the longest 75660 µs. -/
theorem test_frame_duration : frameUs 0x1234 = 63560 ∧ frameUs 0 = 58060 ∧ frameUs 0xFFFF = 75660 := by decide

/-- R117: the ring's index after 255 is 0. -/
theorem test_ring_index_wraps : ringNext 254 = 255 ∧ ringNext 255 = 0 := by decide

/-! ## Reset (V-AI1 to V-AI3, V-CR1, P1 step 1) -/

theorem test_reset_v_ai1 :
    nextSat (exec .reset (withAlarm { weekAlarm with rtcCnt := 18000, table := Vector.replicate 7 0 })) (fun t =>
      readTable t.alarm.table 0 == 18000 && t.alarm.curDay == 0 && t.alarm.isSunrise && t.alarm.almTgt == 18000 &&
        !t.alarm.almEn && t.alarm.almPend && t.ir.link == .receiving) = true := by decide

theorem test_reset_v_cr1 :
    nextSat (exec .reset (withAlarm { weekAlarm with cell := #v[0, 0, 0, 0, 1440, 0, 0] })) (fun t =>
      t.fault == some ⟨.cellRange 4 1440, 0x0100000000000000⟩ && t.alarm.almTgt == 18000) = true := by decide

/-! ## Classifier (V-CL1, V-CL3 to V-CL6, V-CL21) -/

theorem test_classifier_windows :
    [0, 1, 949, 950, 1250, 1251, 2049, 2050, 2350, 2351, 13349, 13350, 13650, 13651].map
        (fun dt => (classifySymbol Config.Params.standard dt).code.toNat) =
      [3, 4, 4, 0, 0, 4, 4, 1, 1, 4, 4, 2, 2, 4] := by decide

theorem test_classifier_open :
    [950, 951, 1249, 1250].map
        (fun dt => (classifySymbol { Config.Params.standard with tolClosed := false } dt).code.toNat) =
      [4, 0, 0, 4] := by decide

theorem test_class : nextSat (exec (.classify 2200) State.reset) (fun t => t.out.result == some 1) = true := by decide

/-! ## Transmit path (V-EN1, P1) -/

theorem test_frame_words :
    frameWord 0x1234 0x56 = 0xA9561234 ∧ frameWord 0x00FF 0x01 = 0xFE0100FF ∧ frameWord 0xBEEF 0x42 = 0xBD42BEEF := by
  decide

/-- V-EN1: entries of the plan of 0xA9561234 and its partial sums. -/
theorem test_plan :
    [0, 1, 2, 3, 7, 65, 66].map (fun i => (readPlan sendingLink.plan i).toInt) =
        [9000, -4500, 560, -540, -1640, -1640, 560] ∧
      [1, 2, 3, 4, 66, 67].map (planStart sendingLink.plan) = [9000, 13500, 14060, 14600, 63000, 63560] := by decide

/-- P1, step 4. -/
theorem test_send :
    nextSat (exec (.send 0x1234 0x56) (withLink clearLink)) (fun t =>
      t.ir.link == .transmitting && !t.ir.edgeEn && t.ir.carrierOn && t.ir.tmrPer == 9000 && t.ir.tmrCnt == 0) = true := by
  decide

/-- P5, step 3. -/
theorem test_send_held :
    nextSat (exec (.send 0x0001 0x02) State.reset) (fun t =>
      t.ir.link == .receiving && t.ir.edgeEn && t.ir.tmrPer == 45000 && t.out == State.reset.out) = true := by decide

/-- P1, step 5: the last µs of the leader mark. -/
theorem test_player_advances :
    nextSat (exec (.tick 0) (withLink { sendingLink with tmrCnt := 8999 })) (fun t =>
      t.ir.planIdx == 1 && !t.ir.carrierOn && t.ir.tmrPer == 4500 && t.ir.tmrCnt == 0) = true := by decide

/-- P1, step 8. -/
theorem test_player_ends :
    nextSat (exec (.tick 0) (withLink { lastLink with measCnt := 108559 })) (fun t =>
      t.ir.link == .receiving && t.ir.edgeEn && !t.ir.carrierOn && t.ir.tmrPer == 45000 && t.ir.tmrCnt == 0 &&
        t.ir.planIdx == 0 && t.ir.measCnt == 108560) = true := by decide

/-- P6, step 5. -/
theorem test_latched_edge :
    nextSat (exec (.tick 0)
        { withLink { lastLink with measCnt := 103059, edgeLatched := true, accN := 2, accBits := 1 } with
          params := { Config.Params.standard with edgeLatchTx := true } }) (fun t =>
      t.ir.link == .receiving && !t.ir.edgeLatched && t.ir.measCnt == 0 && t.ir.tmrCnt == 0 && t.ir.edgeEn &&
        t.ir.accN == 0) = true := by decide

/-! ## Receive path (V-RX2, V-RX3, V-RX5, V-RX6) -/

theorem test_quiet_expiry :
    nextSat (exec (.tick 0) (withLink { IrLink.reset with tmrCnt := 44999, measCnt := 44999 })) (fun t =>
      t.ir.link == .clearToSend && t.ir.tmrCnt == 0 && t.ir.measCnt == 45000) = true := by decide

theorem test_edge_wins :
    nextSat (exec (.tick 1) (withLink { IrLink.reset with tmrCnt := 44999, measCnt := 44999 })) (fun t =>
      t.ir.link == .receiving && t.ir.tmrCnt == 0 && t.ir.measCnt == 0 && t.ir.accN == 0) = true := by decide

theorem test_one_bit :
    nextSat (exec (.tick 1) (withLink { IrLink.reset with tmrCnt := 2199, measCnt := 2199 })) (fun t =>
      t.ir.accN == 1 && t.ir.accBits == 1) = true := by decide

theorem test_two_edges :
    nextSat (exec (.tick 2) (withLink { IrLink.reset with accN := 1 })) (fun t =>
      t.ir.accN == 0 && t.ir.accBits == 0) = true := by decide

/-- The 32nd bit of 0xA9561234, a one, pushes the frame word (P2, step 2). -/
theorem test_frame_complete :
    nextSat (exec (.tick 1) (withLink { IrLink.reset with accN := 31, accBits := 0x29561234, measCnt := 2199 })) (fun t =>
      t.ir.head == 1 && readRing t.ir.ring 0 == 0xA9561234 && t.ir.accN == 0 && t.ir.accBits == 0) = true := by decide

/-- R114: right after reset `LSTAT` returns 0; while `ClearToSend` it returns 2 (R70). -/
theorem test_lstat :
    nextSat (exec .lstat State.reset) (fun t => t.out.result == some 0) = true ∧
      nextSat (exec .lstat (withLink clearLink)) (fun t => t.out.result == some 2) = true := by decide

/-! ## Packet ring (V-RB1 to V-RB5) -/

/-- V-RB2. -/
theorem test_recv :
    nextSat (exec .recv (withLink { IrLink.reset with head := 1, ring := writeRing IrLink.reset.ring 0 0xA9561234 }))
      (fun t => t.out.result == some 0xA9561234 && t.ir.tail == 1) = true := by decide

/-- V-RB1: the indices stay. What the word holds above its address is free. -/
theorem test_recv_empty :
    nextSat (exec .recv State.reset) (fun t =>
      t.ir.head == 0 && t.ir.tail == 0 && t.out.result.isSome) = true := by decide

/-- V-RB3 to V-RB5. -/
theorem test_push :
    (push { IrLink.reset with head := 255, tail := 0 } 7).head = 255 ∧
      (push { IrLink.reset with head := 255, tail := 1 } 7).head = 0 ∧
      readRing (push { IrLink.reset with head := 255, tail := 1 } 7).ring 255 = 7 ∧
      (push { IrLink.reset with head := 0, tail := 1 } 7).head = 0 := by decide

/-! ## Scheduler -/

/-- V-SC1. -/
theorem test_sec :
    nextSat (exec .sec (withAlarm { weekAlarm with rtcCnt := 17999 })) (fun t =>
      t.alarm.rtcCnt == 18000 && t.alarm.almPend && !t.alarm.almEn) = true := by decide

/-- V-SC2. -/
theorem test_sec_wraps :
    nextSat (exec .sec (withAlarm { weekAlarm with rtcCnt := 0xFFFFFFFF })) (fun t => t.alarm.rtcCnt == 0) = true := by
  decide

/-- V-AI2, for `AINIT` itself. -/
theorem test_ainit_elapsed :
    nextSat (exec .ainit (withAlarm { weekAlarm with rtcCnt := 21600 })) (fun t =>
      !t.alarm.isSunrise && t.alarm.almTgt == 86400 && t.alarm.almEn && !t.alarm.almPend) = true := by decide

/-- V-OV2. -/
theorem test_ainit_overflow :
    nextSat (exec .ainit (withAlarm { State.reset.alarm with rtcCnt := 4294944000 })) (fun t =>
      t.fault == some ⟨.armOvf 4295030400, 0x2000000000000000⟩) = true := by decide

/-- V-SV2. -/
theorem test_aserv_sunrise :
    nextSat (exec .aserv (withAlarm { weekAlarm with almPend := true, almEn := false, rtcCnt := 18000 })) (fun t =>
      t.out.result == some 1 && !t.alarm.isSunrise && t.alarm.almTgt == 86400 && t.alarm.almEn &&
        t.alarm.curDay == 0) = true := by decide

/-- V-SV5: the week rolls over. -/
theorem test_aserv_week :
    nextSat (exec .aserv
        (withAlarm { weekAlarm with
          almPend := true, almEn := false, isSunrise := false, curDay := 6, rtcCnt := 604800 })) (fun t =>
      t.out.result == some 2 && t.alarm.curDay == 7 && t.alarm.almTgt == 622800 && t.alarm.isSunrise) = true := by decide

/-- V-ST1. -/
theorem test_aset :
    nextSat (exec (.aset 0 18000) State.reset) (fun t =>
      readTable t.alarm.table 0 == 18000 && readCell t.alarm.cell 0 == 300 && t.alarm.almTgt == 86400) = true := by decide

/-- V-DE16. -/
theorem test_aset_range :
    nextSat (exec (.aset 0 86400) State.reset) (fun t =>
      t.fault == some ⟨.range [0, 86400], 0x2200000000015180⟩ && t.alarm == State.reset.alarm) = true := by decide

/-- V-ST4. -/
theorem test_aget : nextSat (exec (.aget 2) (withAlarm weekAlarm)) (fun t => t.out.result == some 25200) = true := by decide

/-- V-TS2. -/
theorem test_tset :
    nextSat (exec (.tset 100) (withAlarm { weekAlarm with almEn := true, almTgt := 100 })) (fun t =>
      t.alarm.rtcCnt == 100 && !t.alarm.almPend && t.alarm.almEn) = true := by decide

/-- V-TS1. -/
theorem test_tget :
    nextSat (exec .tget (withAlarm { weekAlarm with rtcCnt := 17998 })) (fun t => t.out.result == some 17998) = true := by
  decide

/-! ## Steps -/

/-- A legal descriptor in the slot that `withFetchWord` fills runs in the next step. -/
theorem test_step_runs :
    nextSat (step (State.reset.withFetchWord 64 0x2200000000004650)) (fun t =>
      readTable t.alarm.table 0 == 18000 && t.inputs == State.reset.inputs) = true := by decide

/-- R77: the all-zero word raises. -/
theorem test_step_illegal :
    nextSat (step (State.reset.withFetchWord 64 0)) (fun t => t.fault == some ⟨.illegal 0, 0⟩) = true := by decide

/-- R13: a held `SEND` stays at the head of `MAIN`'s program. -/
theorem test_step_held :
    nextSat (step (State.reset.withFetchWord 64 0x1000123400000056)) (fun t =>
      t.inputs.main == [0x1000123400000056] && t.ir.link == .receiving) = true := by decide

/-! ## Witnesses: states and operands that meet the hypotheses of each statement, clause by clause

A statement whose only hypothesis is that no fault is recorded is met by `witness_no_fault` with any operands; its clauses by
range have their own theorem. -/

theorem witness_no_fault : State.reset.fault = none := by decide

theorem witness_DecodeOfEncode : WellFormed (.aset 7 (2 ^ 32 - 1)) ∧ WellFormed (.tick 255) := by decide

theorem witness_EncodeOfDecode : decodesTo 0x1000FFFF000000FF (.send 0xFFFF 0xFF) = true := by decide

theorem witness_DecodeFollowsOpcodeTable :
    (∃ r ∈ opcodeTable, r.holds 0x22000007FFFFFFFF) ∧ ∀ r ∈ opcodeTable, ¬ r.holds 0x2200000800000000 := by decide

theorem witness_StepRunsDecoded :
    (issuing .main 0x1200000000000000).fault = none ∧
      nextTurn (issuing .main 0x1200000000000000) = .issue .main 0x1200000000000000 ∧
      decodesTo 0x1200000000000000 .lstat = true ∧ agentOf .lstat = .main := by decide

theorem witness_IllegalDescriptorRaises :
    ((issuing .irenv 0x0201000000000000).fault = none ∧
      nextTurn (issuing .irenv 0x0201000000000000) = .issue .irenv 0x0201000000000000 ∧
      ∀ r ∈ opcodeTable, ¬ r.holds 0x0201000000000000) ∧
    ∃ r ∈ opcodeTable, r.holds 0x02000000000000FF := by decide

theorem witness_HeldSendStaysAtHead :
    (issuing .main (encode (.send 1 2))).fault = none ∧
      nextTurn (issuing .main (encode (.send 1 2))) = .issue .main (encode (.send 1 2)) ∧
      (issuing .main (encode (.send 1 2))).ir.link ≠ .clearToSend := by decide

theorem witness_FaultIsPreciseAndFinal :
    nextSat (exec (.aget 7) State.reset) (fun t => t.fault.isSome) = true ∧
      (raise State.reset (.range [7]) (encode (.aget 7))).fault ≠ none := by decide

/-- Each cause, at the boundary of its range. -/
theorem witness_FaultCauses :
    nextSat (exec (.aset 7 0) State.reset) (fun t => t.fault == some ⟨.range [7, 0], encode (.aset 7 0)⟩) = true ∧
    nextSat (exec (.aset 0 86400) State.reset) (fun t => t.fault.isSome) = true ∧
    nextSat (exec (.aget 7) State.reset) (fun t => t.fault.isSome) = true ∧
    nextSat (exec (.tset 256) narrow) (fun t => t.fault.isSome) = true ∧
    nextSat (exec .ainit (withAlarm { State.reset.alarm with rtcCnt := 4294944000 })) (fun t => t.fault.isSome) = true ∧
    nextSat (exec .reset (withAlarm { weekAlarm with cell := #v[0, 0, 0, 0, 0, 0, 1440] })) (fun t =>
      t.fault.isSome) = true := by decide

theorem witness_StepAlwaysAnswers :
    (issuing .main 0x1200000000000000).fault = none ∧ InputsOwned (issuing .main 0x1200000000000000) := by
  refine ⟨by decide, fun a d hd i hi => ?_⟩
  have h : decode 0x1200000000000000 = .ok .lstat := by decide
  cases a <;> simp [issuing, issueNext, setQueue, queue, State.reset] at hd
  subst hd
  cases Except.ok.inj (hi.symm.trans h)
  rfl

theorem witness_StepKeepsInvariant :
    Inv (issuing .irenv 0x0200000000000001) ∧
      nextSat (step (issuing .irenv 0x0200000000000001)) (fun t => t.ir.measCnt == 0) = true ∧
      Inv (withLink lastLink) := ⟨by decide, by decide, by decide⟩

theorem witness_EveryResetEstablishesInvariant :
    (withAlarm weekAlarm).params.wf ∧ (withAlarm weekAlarm).alarm.rtcCnt < 2 ^ (withAlarm weekAlarm).params.cntW ∧
      nextSat (exec .reset (withAlarm weekAlarm)) (fun t => t.fault.isNone) = true := by decide

theorem witness_ClassifierWindows :
    Config.Params.standard.tolClosed = true ∧ ({ Config.Params.standard with tolClosed := false }).tolClosed = false := by
  decide

/-- For `PlanLayout`, `FrameDuration` and `FrameRoundTrip`. -/
theorem witness_params_wf : Config.Params.standard.wf := by decide

theorem witness_SendStartsTransmission :
    (withLink clearLink).fault = none ∧ (withLink clearLink).ir.link = .clearToSend ∧
      State.reset.ir.link ≠ .clearToSend := by decide

/-- The first clause at its first and last µs, the second at the end of the plan (V-EN1: 63560 µs). -/
theorem witness_TransmitTimeline :
    (withLink clearLink).fault = none ∧ (withLink clearLink).params.wf ∧ (withLink clearLink).ir.link = .clearToSend ∧
      ([] : List Nat).length = planStart sendingLink.plan 0 + 0 ∧ 0 < (intervalUs (readPlan sendingLink.plan 0)).toNat ∧
      559 < (intervalUs (readPlan sendingLink.plan 66)).toNat ∧ planStart sendingLink.plan 66 + 559 = 63559 ∧
      planStart sendingLink.plan 67 = 63560 := by decide

theorem witness_TransmitTimeline_lengths :
    (List.replicate 63559 0).length = 63559 ∧ (List.replicate 63560 0).length = 63560 :=
  ⟨List.length_replicate, List.length_replicate⟩

theorem witness_TransmissionCannotBeAborted :
    (withLink lastLink).fault = none ∧ Inv (withLink lastLink) ∧ (withLink lastLink).ir.link = .transmitting ∧
      nextSat (exec (.tick 0) (withLink lastLink)) (fun t => t.ir.link == .receiving) = true ∧
      nextSat (exec .reset (withLink lastLink)) (fun t => t.ir.link == .receiving) = true ∧
      nextSat (exec .lstat (withLink lastLink)) (fun t => t.ir.link == .transmitting) = true := by decide

theorem witness_EdgeEnableWriters :
    nextSat (exec (.send 1 2) (withLink clearLink)) (fun t => t.ir.edgeEn != clearLink.edgeEn) = true ∧
      nextSat (exec (.tick 0) (withLink lastLink)) (fun t => t.ir.edgeEn != lastLink.edgeEn) = true ∧
      nextSat (exec .reset (withLink lastLink)) (fun t => t.ir.edgeEn != lastLink.edgeEn) = true := by decide

theorem witness_QuietTickCounts : State.reset.ir.tmrCnt + 1 ≠ State.reset.ir.tmrPer := by decide

theorem witness_QuietExpiry :
    (withLink { IrLink.reset with tmrCnt := 44999 }).ir.tmrCnt + 1 =
        (withLink { IrLink.reset with tmrCnt := 44999 }).ir.tmrPer ∧
      (withLink { clearLink with tmrCnt := 44999 }).ir.tmrCnt + 1 = (withLink { clearLink with tmrCnt := 44999 }).ir.tmrPer ∧
      IrLink.reset.link = .receiving ∧ clearLink.link = .clearToSend := by decide

/-- The first clause at both ends of its range, the second at 66. -/
theorem witness_PlayerStepsThePlan :
    lastLink.link = .transmitting ∧ lastLink.edgeEn = false ∧ lastLink.tmrCnt + 1 = lastLink.tmrPer ∧
      lastLink.planIdx = 66 ∧ ({ lastLink with planIdx := 65 }).planIdx.toNat < 66 ∧
      { sendingLink with tmrCnt := 8999 }.tmrCnt + 1 = sendingLink.tmrPer ∧ sendingLink.planIdx.toNat < 66 := by decide

theorem witness_MaskedEdgesAreNotActioned :
    (withLink sendingLink).fault = none ∧ (withLink sendingLink).ir.edgeEn = false := by decide

theorem witness_EdgeBeatsExpiry :
    (withLink { IrLink.reset with tmrCnt := 44999 }).fault = none ∧
      (withLink { IrLink.reset with tmrCnt := 44999 }).ir.edgeEn = true ∧ 0 < 1 ∧
      (withLink { IrLink.reset with tmrCnt := 44999 }).ir.tmrPer ≠ 0 := by decide

/-- Each clause: a bit before the last, the last bit into a ring with room and into a full one, a symbol that clears. -/
theorem witness_EdgeUpdatesAccumulator :
    classifySymbol Config.Params.standard (countMeasure Config.Params.standard 1099) = .zero ∧
      classifySymbol Config.Params.standard (countMeasure Config.Params.standard 2199) = .one ∧
      classifySymbol Config.Params.standard (countMeasure Config.Params.standard 13499) = .start ∧
      classifySymbol Config.Params.standard (countMeasure Config.Params.standard 0) = .noise ∧
      IrLink.reset.edgeEn = true ∧ (30#6).toNat < 31 ∧ (31#6).toNat = 31 ∧ (255#8) + 1 = 0 ∧ (0#8) + 1 ≠ 0 := by decide

theorem witness_PushStoresOrDrops :
    ({ IrLink.reset with head := 255 }).head + 1 = ({ IrLink.reset with head := 255 }).tail ∧
      ({ IrLink.reset with head := 254 }).head + 1 ≠ ({ IrLink.reset with head := 254 }).tail := by decide

/-- The first clause at 44999 and 45000 µs, the second at the µs of the expiry. -/
theorem witness_QuietProofBeforeClearToSend :
    State.reset.ir.link = .receiving ∧ State.reset.ir.tmrPer = 45000 ∧ State.reset.ir.tmrCnt.toNat + 44999 ≤ 45000 ∧
      State.reset.ir.tmrCnt.toNat + 45000 ≤ 45000 ∧ Inv (withLink { IrLink.reset with tmrCnt := 44999 }) ∧
      nextSat (exec (.tick 0) (withLink { IrLink.reset with tmrCnt := 44999 })) (fun t =>
        t.ir.link == .clearToSend) = true := by decide

/-- Unbounded, and V-RX10's modulus. -/
theorem witness_MeasureWraps :
    State.reset.params.edgeLatchTx = false ∧ (∀ m ∈ State.reset.params.measWrap, State.reset.ir.measCnt < m) ∧
      ∀ m ∈ ({ Config.Params.standard with measWrap := some 65536 }).measWrap, State.reset.ir.measCnt < m := by decide

theorem witness_FrameRoundTrip :
    State.reset.fault = none ∧ State.reset.ir.edgeEn = true ∧ State.reset.ir.tmrPer = 45000 ∧
      State.reset.params.tolClosed = true ∧ (∀ m ∈ State.reset.params.measWrap, 13650 < m) ∧
      nextSat (exec (.tick 1) State.reset) (fun t => t.ir.head + 1 != t.ir.tail) = true ∧
      nextSat (exec (.tick 1) (withLink { IrLink.reset with head := 255 })) (fun t => t.ir.head + 1 == t.ir.tail) = true := by
  decide

/-- Every interval 150 µs long. -/
theorem witness_FrameRoundTrip_gaps :
    ∃ gap : Nat → Nat, ∀ k < 33,
      edgeInterval (buildPlan Config.Params.standard (frameWord 0x1234 0x56)) k ≤ gap k + 150 ∧
        gap k ≤ edgeInterval (buildPlan Config.Params.standard (frameWord 0x1234 0x56)) k + 150 :=
  ⟨fun k => edgeInterval (buildPlan Config.Params.standard (frameWord 0x1234 0x56)) k + 150, fun _ _ => ⟨by simp only; omega, Nat.le_refl _⟩⟩

theorem witness_AccumulatorWriters :
    nextSat (exec (.send 1 2) (withLink clearLink)) (fun t => t.ir.accN == 0) = true ∧
      nextSat (exec (.tick 0) State.reset) (fun t => t.ir.accN == 0) = true ∧
      (State.reset.params.edgeLatchTx && State.reset.ir.edgeLatched) = false ∧
      State.reset.params.measWrap = none ∧ State.reset.ir.edgeEn = true ∧
      45000 ≤ (withLink { IrLink.reset with measCnt := 44999 }).ir.measCnt + 1 := by decide

theorem witness_RecvReturnsOldestOrSentinel :
    (withLink { IrLink.reset with head := 1 }).ir.head ≠ (withLink { IrLink.reset with head := 1 }).ir.tail ∧
      State.reset.ir.head = State.reset.ir.tail := by decide

theorem witness_RingIsFirstInFirstOut :
    nextSat (exec .recv (withLink { IrLink.reset with head := 1 })) (fun t => t.fault.isNone) = true ∧
      packets { IrLink.reset with head := 1 } ≠ [] ∧
      nextSat (exec .recv State.reset) (fun t => t.fault.isNone) = true ∧ packets State.reset.ir = [] ∧
      nextSat (exec (.tick 1) State.reset) (fun t => t.fault.isNone) = true ∧
      nextSat (exec .reset State.reset) (fun t => t.fault.isNone) = true ∧
      nextSat (exec .lstat State.reset) (fun t => t.fault.isNone) = true := by decide

theorem witness_ArmSetsTheOneAlarm :
    2 ^ Config.Params.standard.cntW ≤ 4294967296 ∧ 4294967295 < 2 ^ Config.Params.standard.cntW ∧
      Config.Params.standard.alarmMatchOnArm = true ∧ State.reset.alarm.rtcCnt = 0 ∧ State.reset.alarm.rtcCnt ≠ 1 := by
  decide

/-- Today's alarm at its own second, and the overflow of V-OV2. -/
theorem witness_AinitArmsTodayOrMidnight :
    (readTable weekAlarm.table (18000 / 86400 % 7)).toNat = 18000 ∧ 18000 < 2 ^ State.reset.params.cntW ∧
      (readTable State.reset.alarm.table (4294944000 / 86400 % 7)).toNat = 0 ∧
      2 ^ State.reset.params.cntW ≤ (4294944000 / 86400 + 1) * 86400 := by decide

theorem witness_AservWithNothingPending : State.reset.alarm.almPend = false := by decide

theorem witness_AservServesSunrise :
    ({ weekAlarm with almPend := true, almEn := false }).isSunrise = true ∧
      (weekAlarm.curDay.toNat + 1) * 86400 < 2 ^ State.reset.params.cntW ∧
      2 ^ State.reset.params.cntW ≤ ((49710 : BitVec 32).toNat + 1) * 86400 := by decide

/-- A day with an entry, a day without one, and an overflow. -/
theorem witness_AservServesRollover :
    ({ weekAlarm with isSunrise := false, almPend := true }).isSunrise = false ∧
      (readTable weekAlarm.table (((1 : BitVec 32) + 1).toNat % 7)).toNat = 25200 ∧
      (readTable weekAlarm.table (((0 : BitVec 32) + 1).toNat % 7)).toNat = 0 ∧
      2 ^ State.reset.params.cntW ≤ (((49709 : BitVec 32) + 1).toNat + 1) * 86400 := by decide

/-- For `AservServesSunrise` and `AservServesRollover`: the operation in such states. -/
theorem witness_Aserv_overflow :
    nextSat (exec .aserv (withAlarm { weekAlarm with almPend := true, curDay := 49710 })) (fun t => t.fault.isSome) = true ∧
      nextSat (exec .aserv (withAlarm { weekAlarm with almPend := true, isSunrise := false, curDay := 49709, table := Vector.replicate 7 0 }))
        (fun t => t.fault.isSome) = true := by decide

theorem witness_AsetStoresTableAndCell :
    6 < 7 ∧ 86399 < 86400 ∧ State.reset.params.cellUnitS = 60 ∧ 7 ≤ 7 ∧ 86400 ≤ 86400 := by decide

theorem witness_AgetReturnsEntry : 6 < 7 ∧ 7 ≤ 7 := by decide

theorem witness_TsetWritesCounterOnly :
    narrow.fault = none ∧ 255 < 2 ^ narrow.params.cntW ∧ 2 ^ narrow.params.cntW ≤ 256 := by decide

theorem witness_AsetSurvivesRebootInMinutes :
    nextSat (exec (.aset 1 59) State.reset) (fun t =>
      nextSat (exec .reset t) fun u => u.fault.isNone && readTable u.alarm.table 1 == 0) = true := by decide

theorem witness_LateTargetNeverMatches :
    State.reset.alarm.almTgt ≤ ({ State.reset.alarm with rtcCnt := 86400 }).rtcCnt ∧
      86400 + 100 < 2 ^ State.reset.params.cntW := by decide

/-- The first clause one second before the target, the second at it. -/
theorem witness_ArmedAlarmFiresAtTarget :
    State.reset.alarm.almEn = true ∧ State.reset.alarm.rtcCnt < State.reset.alarm.almTgt ∧
      State.reset.alarm.rtcCnt + 86399 < State.reset.alarm.almTgt ∧
      State.reset.alarm.almTgt ≤ State.reset.alarm.rtcCnt + 86400 ∧ 86400 < 2 ^ State.reset.params.cntW := by decide

theorem witness_ServicedSchedulerFollowsTheWeek :
    (withAlarm weekAlarm).params.alarmMatchOnArm = true ∧
      (∀ i < 7, (readTable (withAlarm weekAlarm).alarm.table i).toNat < 86400) ∧
      (withAlarm weekAlarm).alarm.rtcCnt + 604800 + 2 * 86400 < 2 ^ (withAlarm weekAlarm).params.cntW ∧
      (withAlarm weekAlarm).params.cntW ≤ 32 ∧
      nextSat (exec .ainit (withAlarm weekAlarm)) (fun t => t.fault.isNone) = true := by decide

/-- The same at a midnight, Tuesday's: the first service there gives nothing, though `eventAt` has a rollover. -/
theorem witness_ServicedSchedulerFollowsTheWeek_midnight :
    (withAlarm { weekAlarm with rtcCnt := 86400 }).alarm.rtcCnt % 86400 = 0 ∧
      (withAlarm { weekAlarm with rtcCnt := 86400 }).params.alarmMatchOnArm = true ∧
      (∀ i < 7, (readTable (withAlarm { weekAlarm with rtcCnt := 86400 }).alarm.table i).toNat < 86400) ∧
      (withAlarm { weekAlarm with rtcCnt := 86400 }).alarm.rtcCnt + 604800 + 2 * 86400 < 2 ^ 32 ∧
      eventAt weekAlarm 86400 = .rollover ∧
      nextSat (exec .ainit (withAlarm { weekAlarm with rtcCnt := 86400 }))
        (fun t => t.fault.isNone && watchAlarm 1 t == some [.none]) = true := by decide

/-- A sunrise to arm, the overflow of V-OV2, and the bad cell of V-CR1. -/
theorem witness_ResetBootsTheBlock :
    (∀ i < 7, (readCell weekAlarm.cell i).toNat ≤ 1439) ∧ State.reset.params.cellUnitS = 60 ∧
      nextSat (exec .reset (withAlarm weekAlarm)) (fun t => t.alarm.almTgt == 18000) = true ∧
      nextSat (exec .reset (withAlarm { State.reset.alarm with rtcCnt := 4294944000 })) (fun t => t.fault.isSome) = true ∧
      1439 < (readCell (#v[0, 0, 0, 0, 1440, 0, 0] : Vector (BitVec 16) 7) 4).toNat ∧
      ∀ j < 4, (readCell (#v[0, 0, 0, 0, 1440, 0, 0] : Vector (BitVec 16) 7) j).toNat ≤ 1439 := by
  decide

theorem witness_RetainedStateWriters :
    nextSat (exec .sec State.reset) (fun t => t.alarm.rtcCnt != 0) = true ∧
      nextSat (exec (.aset 0 60) State.reset) (fun t => readCell t.alarm.cell 0 != 0) = true := by decide

theorem witness_HalvesShareNoState :
    State.reset.params = (withAlarm weekAlarm).params ∧
      nextSat (exec (.tick 1) State.reset) (fun _ => true) = true ∧
      nextSat (exec (.tick 1) (withAlarm weekAlarm)) (fun _ => true) = true ∧
      nextSat (exec .ainit (withLink lastLink)) (fun _ => true) = true := by decide

end Sys2Proof.Tests
end

/-!
PROOFS. The decoder and the opcode table (`spec/30_encoding.md` rules R74 to R77): what the decoder accepts is exactly the
encoding of a well-formed operation, and exactly the words of the table's rows.
-/

namespace Sys2Proof.Laws

/-! ## A descriptor is its four fields (R74) -/

theorem eq_of_fields_eq {d e : Descriptor} (hop : opField d = opField e) (hrsv : rsvField d = rsvField e)
    (ha : aField d = aField e) (hb : bField d = bField e) : d = e := by
  have concat_fields (x : Descriptor) :
      (opField x ++ rsvField x ++ aField x ++ bField x : BitVec (8 + 8 + 16 + 32)) = x := by
    simp only [opField, rsvField, aField, bField, BitVec.extractLsb'_append_extractLsb'_eq_extractLsb']
    simp
  rw [← concat_fields d, ← concat_fields e, hop, hrsv, ha, hb]

theorem encode_eq_iff (i : Instr) (d : Descriptor) :
    encode i = d ↔ rsvField d = 0 ∧ opcode i = opField d ∧ operandA i = aField d ∧ operandB i = bField d := by
  obtain ⟨hop, hrsv, ha, hb⟩ := encodingFields_of_encode i
  constructor
  · rintro rfl
    exact ⟨hrsv, hop.symm, ha.symm, hb.symm⟩
  · rintro ⟨hrsv', hop', ha', hb'⟩
    exact eq_of_fields_eq (hop.trans hop') (hrsv.trans hrsv'.symm) (ha.trans ha') (hb.trans hb')

theorem extractLsb'_and_not (d m : Descriptor) {start len : Nat} (h : start + len ≤ 64) :
    (d &&& ~~~m).extractLsb' start len = d.extractLsb' start len &&& ~~~m.extractLsb' start len := by
  ext i hi
  simp [show start + i < 64 by omega]

theorem and_not_eq_iff_fields (d m v : Descriptor) :
    d &&& ~~~m = v ↔
      opField d &&& ~~~opField m = opField v ∧ rsvField d &&& ~~~rsvField m = rsvField v ∧
        aField d &&& ~~~aField m = aField v ∧ bField d &&& ~~~bField m = bField v := by
  have hop : opField (d &&& ~~~m) = opField d &&& ~~~opField m := extractLsb'_and_not d m (by decide)
  have hrsv : rsvField (d &&& ~~~m) = rsvField d &&& ~~~rsvField m := extractLsb'_and_not d m (by decide)
  have ha : aField (d &&& ~~~m) = aField d &&& ~~~aField m := extractLsb'_and_not d m (by decide)
  have hb : bField (d &&& ~~~m) = bField d &&& ~~~bField m := extractLsb'_and_not d m (by decide)
  rw [← hop, ← hrsv, ← ha, ← hb]
  exact ⟨fun h => by simp [h], fun ⟨hop, hrsv, ha, hb⟩ => eq_of_fields_eq hop hrsv ha hb⟩

/-! ## What the decoder accepts (R75, R76) -/

@[simp] theorem whenZero_eq_ok {unused : Bool} {i j : Instr} : whenZero unused i = .ok j ↔ unused = true ∧ i = j := by
  cases unused <;> simp [whenZero]

/-- The command byte holds all of field `B` where the bits above it are 0. -/
theorem setWidth_commandByte {b : BitVec 32} (h : b.toNat < 2 ^ 8) : (b.extractLsb' 0 8).setWidth 32 = b := by
  apply BitVec.eq_of_toNat_eq
  simp
  omega

theorem commandByte_setWidth (c : BitVec 8) : (c.setWidth 32).extractLsb' 0 8 = c := by
  apply BitVec.eq_of_toNat_eq
  simp
  omega

/-- What the decoder reads off the fields is a well-formed operation that has those fields. The cases are the arms of
`decodeOp` in their order; the last one is the unassigned opcode. -/
theorem fields_of_decodeOp {op : Nat} {a : BitVec 16} {b : BitVec 32} {i : Instr} (h : decodeOp op a b = .ok i) :
    WellFormed i ∧ (opcode i).toNat = op ∧ operandA i = a ∧ operandB i = b := by
  unfold decodeOp at h
  split at h
  case h_14 => cases h
  all_goals
    obtain ⟨hz, rfl⟩ := whenZero_eq_ok.mp h
    simp only [Bool.and_eq_true, beq_iff_eq, decide_eq_true_eq] at hz
  case h_1 | h_3 | h_5 | h_6 | h_8 | h_9 | h_13 => exact ⟨trivial, rfl, hz.1.symm, hz.2.symm⟩
  case h_2 => exact ⟨hz.2, rfl, hz.1.symm, BitVec.ofNat_toNat ..⟩
  case h_4 => exact ⟨trivial, rfl, rfl, setWidth_commandByte hz⟩
  case h_7 | h_12 => exact ⟨b.isLt, rfl, hz.symm, BitVec.ofNat_toNat ..⟩
  case h_10 => exact ⟨⟨hz, b.isLt⟩, rfl, BitVec.ofNat_toNat .., BitVec.ofNat_toNat ..⟩
  case h_11 => exact ⟨hz.1, rfl, BitVec.ofNat_toNat .., hz.2.symm⟩

theorem decodeOp_fields {i : Instr} (h : WellFormed i) :
    decodeOp (opcode i).toNat (operandA i) (operandB i) = .ok i := by
  cases i with
  | reset | sec | recv | lstat | ainit | aserv | tget => rfl
  | send a c =>
    simp [decodeOp, opcode, operandA, operandB, commandByte_setWidth]
    omega
  | tick e | classify dt | aset day secs | aget day | tset v =>
    simp only [WellFormed] at h
    simp [decodeOp, opcode, operandA, operandB]
    omega

/-- A word decodes to an operation where it is the encoding of that operation, and to nothing else. -/
theorem decode_eq_ok_iff (d : Descriptor) (i : Instr) : decode d = .ok i ↔ WellFormed i ∧ encode i = d := by
  rw [encode_eq_iff]
  constructor
  · intro h
    unfold decode at h
    split at h
    next hrsv =>
      obtain ⟨hw, hop, hoperands⟩ := fields_of_decodeOp h
      exact ⟨hw, hrsv, BitVec.eq_of_toNat_eq hop, hoperands⟩
    next => cases h
  · rintro ⟨hw, hrsv, hop, ha, hb⟩
    rw [decode, if_pos hrsv, ← hop, ← ha, ← hb, decodeOp_fields hw]

/-! ## Masks (R76) -/

/-- The number whose bits below `k` are ones. -/
def lowOnes (w k : Nat) : BitVec w := (BitVec.allOnes k).setWidth w

/-- A mask of every bit from `k` up tests that a number is below `2 ^ k`. -/
theorem and_not_lowOnes_eq_zero_iff {w : Nat} (v : BitVec w) (k : Nat) :
    v &&& ~~~lowOnes w k = 0 ↔ v.toNat < 2 ^ k := by
  constructor
  · intro h
    refine Nat.lt_pow_two_of_testBit _ fun i hi => ?_
    by_cases hw : i < w
    · have hbit := congrArg (·.getLsbD i) h
      rw [BitVec.testBit_toNat]
      simpa [lowOnes, hw, Nat.not_lt.mpr hi] using hbit
    · exact BitVec.getLsbD_of_ge v i (Nat.not_lt.mp hw)
  · intro h
    refine BitVec.eq_of_getLsbD_eq fun i hi => ?_
    by_cases hk : i < k
    · simp [lowOnes, hi, hk]
    · have hbit : v.getLsbD i = false :=
        Nat.testBit_lt_two_pow (h.trans_le (Nat.pow_le_pow_right (by decide) (Nat.not_lt.mp hk)))
      rw [BitVec.getLsbD_and, hbit, Bool.false_and]
      exact BitVec.getLsbD_zero.symm

theorem eq_zero_of_toNat_lt {w : Nat} {v : BitVec w} (h : v.toNat < 2 ^ 0) : v = 0 :=
  BitVec.eq_of_toNat_eq (by simpa using h)

/-! ## The rows of the opcode table (R75) -/

/-- How many low bits of field `A` an operation uses (R76). -/
def usedA : Instr → Nat
  | .send _ _ => 16
  | .aset _ _ | .aget _ => 3
  | .reset | .tick _ | .sec | .recv | .lstat | .classify _ | .ainit | .aserv | .tset _ | .tget => 0

/-- How many low bits of field `B` an operation uses (R76). -/
def usedB : Instr → Nat
  | .tick _ | .send _ _ => 8
  | .classify _ | .aset _ _ | .tset _ => 32
  | .reset | .sec | .recv | .lstat | .ainit | .aserv | .aget _ | .tget => 0

/-- The row of an operation: its opcode, and a mask of every bit but the operand bits that it uses. -/
def rowOf (i : Instr) : OpcodeRow where
  mnemonic := mnemonic i
  bits := descriptor (opcode i) 0 0
  mask := ~~~descriptor 0 (lowOnes 16 (usedA i)) (lowOnes 32 (usedB i))

theorem opcodeTable_eq_map_rowOf :
    opcodeTable =
      [.reset, .tick 0, .sec, .send 0 0, .recv, .lstat, .classify 0, .ainit, .aserv, .aset 0 0, .aget 0, .tset 0,
        .tget].map rowOf := by
  simp [opcodeTable, rowOf, mnemonic, descriptor, opcode, usedA, usedB, lowOnes]

/-- The table holds one row per constructor of `Instr` and no other. -/
theorem mem_opcodeTable_iff (r : OpcodeRow) : r ∈ opcodeTable ↔ ∃ i, rowOf i = r := by
  rw [opcodeTable_eq_map_rowOf]
  constructor
  · intro h
    obtain ⟨i, -, hi⟩ := List.mem_map.mp h
    exact ⟨i, hi⟩
  · rintro ⟨i, rfl⟩
    cases i <;> simp [rowOf, mnemonic, opcode, usedA, usedB]

theorem holds_rowOf_iff (i : Instr) (d : Descriptor) :
    (rowOf i).holds d ↔
      rsvField d = 0 ∧ opField d = opcode i ∧ (aField d).toNat < 2 ^ usedA i ∧ (bField d).toNat < 2 ^ usedB i := by
  have and_not_zero (v : BitVec 8) : v &&& ~~~(0 : BitVec 8) = v := BitVec.and_allOnes
  simp only [OpcodeRow.holds, rowOf, and_not_eq_iff_fields, opField_descriptor, rsvField_descriptor, aField_descriptor,
    bField_descriptor, and_not_lowOnes_eq_zero_iff, and_not_zero]
  exact and_left_comm

theorem operands_lt_of_wellFormed {i : Instr} (h : WellFormed i) :
    (operandA i).toNat < 2 ^ usedA i ∧ (operandB i).toNat < 2 ^ usedB i := by
  cases i with
  | reset | sec | recv | lstat | ainit | aserv | tget => decide
  | send a c =>
    simp [operandA, operandB, usedA, usedB]
    omega
  | tick e | classify dt | aset day secs | aget day | tset v =>
    simp only [WellFormed] at h
    simp [operandA, operandB, usedA, usedB]
    omega

/-- A word that decodes belongs to the row of its operation. -/
theorem holds_rowOf_of_decode {d : Descriptor} {i : Instr} (h : decode d = .ok i) : (rowOf i).holds d := by
  obtain ⟨hw, he⟩ := (decode_eq_ok_iff d i).mp h
  obtain ⟨hrsv, hop, ha, hb⟩ := (encode_eq_iff i d).mp he
  obtain ⟨hltA, hltB⟩ := operands_lt_of_wellFormed hw
  exact (holds_rowOf_iff i d).mpr ⟨hrsv, hop.symm, ha ▸ hltA, hb ▸ hltB⟩

/-- A word that belongs to a row decodes to an operation of that row. -/
theorem decode_of_holds_rowOf {d : Descriptor} {i : Instr} (h : (rowOf i).holds d) :
    ∃ j, decode d = .ok j ∧ mnemonic j = mnemonic i := by
  obtain ⟨hrsv, hop, ha, hb⟩ := (holds_rowOf_iff i d).mp h
  rw [decode, if_pos hrsv, hop]
  cases i with
  | reset | sec | recv | lstat | ainit | aserv | tget =>
    simp [decodeOp, opcode, mnemonic, eq_zero_of_toNat_lt ha, eq_zero_of_toNat_lt hb]
  | classify _ | tset _ => simp [decodeOp, opcode, mnemonic, eq_zero_of_toNat_lt ha]
  | tick _ => simpa [decodeOp, opcode, mnemonic, eq_zero_of_toNat_lt ha, usedB] using hb
  | send _ _ => simpa [decodeOp, opcode, mnemonic, usedB] using hb
  | aset _ _ => simpa [decodeOp, opcode, mnemonic, usedA] using ha
  | aget _ => simpa [decodeOp, opcode, mnemonic, eq_zero_of_toNat_lt hb, usedA] using ha

theorem exists_row_holds_iff (d : Descriptor) : (∃ r ∈ opcodeTable, r.holds d) ↔ ∃ i, decode d = .ok i := by
  constructor
  · rintro ⟨r, hr, hd⟩
    obtain ⟨i, rfl⟩ := (mem_opcodeTable_iff r).mp hr
    obtain ⟨j, hj, -⟩ := decode_of_holds_rowOf hd
    exact ⟨j, hj⟩
  · rintro ⟨i, hi⟩
    exact ⟨rowOf i, (mem_opcodeTable_iff _).mpr ⟨i, rfl⟩, holds_rowOf_of_decode hi⟩

end Sys2Proof.Laws

namespace Sys2Proof.Machine

/-- A turn whose descriptor is illegal raises `F_ILLEGAL` (R77). -/
theorem step_of_decode_error {s : State} {a : Agent} {d : Descriptor} {e : DecodeError} (h : s.fault = none)
    (hn : nextTurn s = .issue a d) (hd : decode d = .error e) :
    step s = .next (raise (afterTurn s a false) (.illegal d) d) := by
  simp only [step, unlessFaulted_of_none h, hn, hd]

end Sys2Proof.Machine

namespace Sys2Proof.Proofs

open Sys2Proof.Machine Sys2Proof.Laws

/-- Settles O6: a word decodes exactly where a row of the table holds of it, so a word of no row takes the step's illegal
branch, which writes the fault record and the inputs alone. -/
theorem illegalDescriptorRaises : Obligations.IllegalDescriptorRaises := by
  refine ⟨fun s a d hfault hturn hno => ?_, fun d hrow => ?_⟩
  · cases hd : decode d with
    | ok i =>
      obtain ⟨r, hr, hholds⟩ := (exists_row_holds_iff d).mpr ⟨i, hd⟩
      exact absurd hholds (hno r hr)
    | error e => exact step_of_decode_error hfault hturn hd
  · obtain ⟨i, hi⟩ := (exists_row_holds_iff d).mp hrow
    obtain ⟨hw, he⟩ := (decode_eq_ok_iff d i).mp hi
    exact ⟨i, hw, he, hi⟩

end Sys2Proof.Proofs

/-!
PROOFS. The timing plan of a frame word, entry by entry and in sum (`spec/30_encoding.md` rules R61 to R67).
-/

namespace Sys2Proof.Machine

/-! ## The entries of a plan (R67) -/

@[simp] theorem planEntry_leaderMark (p : Config.Params) (w : FrameWord) : planEntry p w 0 = 9000 := rfl

@[simp] theorem planEntry_leaderSpace (p : Config.Params) (w : FrameWord) : planEntry p w 1 = -4500 := rfl

@[simp] theorem planEntry_stopMark (p : Config.Params) (w : FrameWord) : planEntry p w 66 = 560 := rfl

theorem planEntry_bitMark (p : Config.Params) (w : FrameWord) {i : Nat} (hi : i < 32) :
    planEntry p w (2 + 2 * i) = p.bitMarkUs := by
  rw [planEntry, if_neg (by omega), if_neg (by omega), if_neg (by simp only [Config.planLen]; omega),
    if_pos (by omega)]

theorem planEntry_bitSpace (p : Config.Params) (w : FrameWord) {i : Nat} (hi : i < 32) :
    planEntry p w (3 + 2 * i) = -((bitCycle (w.getLsbD i) : Int) - p.bitMarkUs) := by
  rw [planEntry, if_neg (by omega), if_neg (by omega), if_neg (by simp only [Config.planLen]; omega),
    if_neg (by omega), show (3 + 2 * i - 3) / 2 = i by omega]

/-! ## The duration of a frame (R65, R66) -/

/-- From the first mark to the first falling edge after it: the leader. -/
theorem edgeInterval_leader {p : Config.Params} (hw : p.wf) (w : FrameWord) :
    edgeInterval (buildPlan p w) 0 = 13500 := by
  simp [edgeInterval, intervalUs_buildPlan hw]

/-- The mark and the space of data bit `i` make up its cycle (R64). -/
theorem edgeInterval_bit {p : Config.Params} (hw : p.wf) (w : FrameWord) {i : Nat} (hi : i < 32) :
    edgeInterval (buildPlan p w) (i + 1) = bitCycle (w.getLsbD i) := by
  have hmark : p.bitMarkUs < bitCycle (w.getLsbD i) := by
    have := hw.2.1
    unfold bitCycle
    split <;> simp only [Config.zeroUs, Config.oneUs] at * <;> omega
  rw [edgeInterval, show 2 * (i + 1) = 2 + 2 * i by ring, show 2 + 2 * i + 1 = 3 + 2 * i by ring,
    intervalUs_buildPlan hw w (by omega), intervalUs_buildPlan hw w (by omega), planEntry_bitMark p w hi,
    planEntry_bitSpace p w hi]
  omega

theorem planStart_edge (plan : Vector (BitVec 16) Config.planLen) (k : Nat) :
    planStart plan (2 * (k + 1)) = planStart plan (2 * k) + edgeInterval plan k := by
  rw [edgeInterval, ← Nat.add_assoc, ← planStart_succ, ← planStart_succ]
  rfl

theorem bitCycle_eq (b : Bool) : bitCycle b = 1100 + 1100 * b.toNat := by cases b <;> rfl

/-- Where data bit `k` starts: after the leader and `k` cycles, of which each one-bit's is 1100 µs longer. -/
theorem planStart_bit {p : Config.Params} (hw : p.wf) (w : FrameWord) {k : Nat} (hk : k ≤ 32) :
    planStart (buildPlan p w) (2 * (k + 1)) =
      13500 + 1100 * k + 1100 * (List.range k).countP fun i => w.getLsbD i := by
  induction k with
  | zero => rw [planStart_edge, edgeInterval_leader hw]; simp [planStart]
  | succ k ih =>
    rw [planStart_edge, ih (by omega), edgeInterval_bit hw w (by omega), bitCycle_eq, List.range_succ,
      List.countP_append]
    cases hb : w.getLsbD k <;> simp [hb] <;> omega

/-- R65: the whole frame, by the one-bits of its word. -/
theorem planStart_frame {p : Config.Params} (hw : p.wf) (w : FrameWord) :
    planStart (buildPlan p w) 67 = 49260 + 1100 * popcount w := by
  rw [planStart_succ, planStart_bit hw w (Nat.le_refl 32), intervalUs_buildPlan hw w (by decide), planEntry_stopMark,
    popcount]
  omega

/-! ## The one-bits of a frame word (R61, R62) -/

theorem popcount_append {m n : Nat} (x : BitVec m) (y : BitVec n) : popcount (x ++ y) = popcount x + popcount y := by
  have low : (List.range n).countP (fun i => (x ++ y).getLsbD i) = popcount y :=
    List.countP_congr fun i hi => by simp [BitVec.getLsbD_append, List.mem_range.mp hi]
  have high : (List.range m).countP ((fun i => (x ++ y).getLsbD i) ∘ (n + ·)) = popcount x :=
    List.countP_congr fun i _ => by simp [BitVec.getLsbD_append]
  have places : List.range (m + n) = List.range n ++ (List.range m).map (n + ·) := by rw [Nat.add_comm, List.range_add]
  rw [popcount, places, List.countP_append, List.countP_map, low, high, Nat.add_comm]

theorem popcount_not {n : Nat} (x : BitVec n) : popcount (~~~x) + popcount x = n := by
  have flipped : popcount (~~~x) = (List.range n).countP fun i => ¬ x.getLsbD i :=
    List.countP_congr fun i hi => by simp [List.mem_range.mp hi]
  rw [flipped, popcount, Nat.add_comm, ← List.length_eq_countP_add_countP, List.length_range]

theorem popcount_le {n : Nat} (x : BitVec n) : popcount x ≤ n := Nat.le_of_add_left_le (popcount_not x).le

/-- The command and its complement hold 8 one-bits together, whatever the command (R62). -/
theorem popcount_frameWord (address : BitVec 16) (command : BitVec 8) :
    popcount (frameWord address command) = popcount address + 8 := by
  have hcommand := popcount_not command
  have hword : popcount (frameWord address command) = popcount (~~~command) + popcount command + popcount address :=
    (popcount_append (~~~command ++ command) address).trans (by rw [popcount_append])
  omega

end Sys2Proof.Machine

namespace Sys2Proof.Proofs

open Sys2Proof.Machine

/-- Settles O17: each entry is the one that R67 gives, and storing it in 16 bits loses nothing. -/
theorem planLayout : Obligations.PlanLayout := by
  intro p w hw
  have entry {i : Nat} (hi : i < 67) : (readPlan (buildPlan p w) i).toInt = planEntry p w i :=
    readPlan_buildPlan_toInt hw w hi
  refine ⟨entry (by decide), entry (by decide), fun i hi => ⟨?mark, ?space⟩, entry (by decide), fun i hi => ?nonzero⟩
  case mark => exact (entry (by omega)).trans (planEntry_bitMark p w hi)
  case space =>
    refine (entry (by omega)).trans ((planEntry_bitSpace p w hi).trans ?_)
    cases w.getLsbD i <;> rfl
  case nonzero =>
    show (readPlan (buildPlan p w) i).toInt ≠ 0
    rw [entry hi]
    exact (planEntry_bounds hw w i).1

/-- Settles O18: the intervals are summed cycle by cycle, and the complement in the word fixes 8 of its one-bits. -/
theorem frameDuration : Obligations.FrameDuration := by
  refine ⟨fun p w hw => planStart_frame hw w, fun address command => ?_⟩
  have hones := popcount_frameWord address command
  have hle := popcount_le address
  refine ⟨hones, by omega, by omega, ?shortest, ?longest⟩
  case shortest =>
    rintro rfl
    have hzero : popcount (0x0000 : BitVec 16) = 0 := by decide
    omega
  case longest =>
    rintro rfl
    have hall : popcount (0xFFFF : BitVec 16) = 16 := by decide
    omega

end Sys2Proof.Proofs

/-!
PROOFS. The timing classifier and `CLASS` (`spec/40_classifier.md` rules R81 to R85).
-/

namespace Sys2Proof.Machine

/-! ## The windows (R82, R83) -/

theorem inWindow_of_closed {p : Config.Params} (h : p.tolClosed = true) (c dt : Nat) :
    inWindow p c dt = true ↔ c - 150 ≤ dt ∧ dt ≤ c + 150 := by simp [inWindow, h]

theorem inWindow_of_open {p : Config.Params} (h : p.tolClosed = false) (c dt : Nat) :
    inWindow p c dt = true ↔ c - 150 < dt ∧ dt < c + 150 := by simp [inWindow, h]

theorem inWindow_of_near {p : Config.Params} (h : p.tolClosed = true) {c dt : Nat} (hlow : c ≤ dt + 150)
    (hhigh : dt ≤ c + 150) : inWindow p c dt = true :=
  (inWindow_of_closed h c dt).mpr ⟨Nat.sub_le_of_le_add hlow, hhigh⟩

/-- The symbol of a data bit. -/
def bitSymbol (b : Bool) : Symbol := if b then .one else .zero

/-- An interval within the tolerance of a bit's cycle is that bit (R86). -/
theorem classifySymbol_bit {p : Config.Params} (h : p.tolClosed = true) {b : Bool} {dt : Nat}
    (hlow : bitCycle b ≤ dt + 150) (hhigh : dt ≤ bitCycle b + 150) : classifySymbol p dt = bitSymbol b := by
  have hpos : dt ≠ 0 := by rw [bitCycle_eq] at hlow; omega
  cases b with
  | false =>
    have hzero : inWindow p Config.zeroUs dt = true := inWindow_of_near h hlow hhigh
    rw [classifySymbol, if_neg hpos, if_pos hzero]
    rfl
  | true =>
    have hzero : ¬ inWindow p Config.zeroUs dt = true := by
      rw [inWindow_of_closed h]
      simp only [bitCycle, Config.oneUs, Config.zeroUs, if_true] at *
      omega
    have hone : inWindow p Config.oneUs dt = true := inWindow_of_near h hlow hhigh
    rw [classifySymbol, if_neg hpos, if_neg hzero, if_pos hone]
    rfl

/-- An interval within the tolerance of the leader is a start marker (R86). -/
theorem classifySymbol_start {p : Config.Params} (h : p.tolClosed = true) {dt : Nat}
    (hlow : 13500 ≤ dt + 150) (hhigh : dt ≤ 13500 + 150) : classifySymbol p dt = .start := by
  have hzero : ¬ inWindow p Config.zeroUs dt = true := by rw [inWindow_of_closed h]; simp only [Config.zeroUs]; omega
  have hone : ¬ inWindow p Config.oneUs dt = true := by rw [inWindow_of_closed h]; simp only [Config.oneUs]; omega
  have hstart : inWindow p Config.startUs dt = true := inWindow_of_near h hlow hhigh
  rw [classifySymbol, if_neg (by omega), if_neg hzero, if_neg hone, if_pos hstart]

end Sys2Proof.Machine

namespace Sys2Proof.Proofs

open Sys2Proof.Machine

/-- Settles O14: the classifier tries the three windows in this order, and a window holds its ends where
`TOL_CLOSED` says so. -/
theorem classifierWindows : Obligations.ClassifierWindows := by
  refine fun p dt => ⟨fun hclosed => ?_, fun hopen => ?_⟩
  · simp only [classifySymbol, inWindow_of_closed hclosed]
    rfl
  · simp only [classifySymbol, inWindow_of_open hopen]
    rfl

/-- Settles O15: `CLASS` delivers the symbol's code, and each of the five codes is the one that R68 gives. -/
theorem classReturnsSymbolCode : Obligations.ClassReturnsSymbolCode := by
  intro s dt hfault
  rw [exec_classify hfault]
  cases classifySymbol s.params dt <;> rfl

end Sys2Proof.Proofs

/-!
PROOFS. The reception of a frame: the edges of a transmitted plan, with jitter, put its frame word into the ring
(`spec/40_classifier.md` rule R86; `spec/42_ir_receive.md` rules R101 to R113; `spec/43_packet_queue.md` rule R117).
-/

namespace Sys2Proof.Machine

/-! ## A packet pushed is the last of the queue (R29, R117) -/

theorem packets_push {l : IrLink} (w : FrameWord) (h : l.head + 1 ≠ l.tail) :
    packets (push l w) = packets l ++ [w] := by
  have hcount : (l.head + 1 - l.tail).toNat = (l.head - l.tail).toNat + 1 := by bv_omega
  have hlast : l.tail + BitVec.ofNat 8 (l.head - l.tail).toNat = l.head := by bv_omega
  have hold : ∀ k ∈ List.range (l.head - l.tail).toNat,
      readRing (writeRing l.ring l.head.toNat w) (l.tail + BitVec.ofNat 8 k).toNat =
        readRing l.ring (l.tail + BitVec.ofNat 8 k).toNat := by
    intro k hk
    have hk := List.mem_range.mp hk
    have hplace : (l.tail + BitVec.ofNat 8 k).toNat ≠ l.head.toNat := by bv_omega
    rw [readRing_writeRing _ l.head.isLt, if_neg hplace]
  rw [push_of_room w h, packets_eq, packets_eq, hcount, List.range_succ, List.map_append, List.map_congr_left hold,
    List.map_singleton, hlast, readRing_writeRing _ l.head.isLt, if_pos rfl]

/-- The accumulator is no part of the queue. -/
@[simp] theorem packets_clearAccumulator (l : IrLink) : packets (clearAccumulator l) = packets l :=
  packets_congr rfl rfl rfl

/-! ## The bits of a word as they arrive (R61, R110) -/

/-- The accumulator's bits after the first `k` data bits of `w`. -/
def firstBits (w : FrameWord) (k : Nat) : BitVec 32 := (w.setWidth k).setWidth 32

@[simp] theorem firstBits_zero (w : FrameWord) : firstBits w 0 = 0 := by
  simp [firstBits, BitVec.eq_nil (w.setWidth 0)]

theorem setBit_firstBits (w : FrameWord) {k : Nat} (hk : k < 32) :
    setBit (firstBits w k) (BitVec.ofNat 6 k) (w.getLsbD k) = firstBits w (k + 1) := by
  have hn : (BitVec.ofNat 6 k).toNat = k := by simp; omega
  refine BitVec.eq_of_getLsbD_eq fun j hj => ?_
  rw [setBit_getLsbD _ _ _ _ (by omega), hn]
  by_cases h : j = k
  · simp [firstBits, h, hk]
  · have hlt : j < k + 1 ↔ j < k := by omega
    simp [firstBits, h, hj, hlt]

theorem setBit_firstBits_last (w : FrameWord) : setBit (firstBits w 31) 31 (w.getLsbD 31) = w :=
  (setBit_firstBits w (by decide)).trans (by simp [firstBits])

/-- The record `l` with the first `k` data bits of `w` in the accumulator. -/
def withBits (l : IrLink) (w : FrameWord) (k : Nat) : IrLink :=
  { l with accN := BitVec.ofNat 6 k, accBits := firstBits w k }

theorem receiveSymbol_bitSymbol (l : IrLink) (b : Bool) : receiveSymbol l (bitSymbol b) = accumulate l b := by
  cases b <;> rfl

theorem clearAccumulator_eq_withBits (l : IrLink) (w : FrameWord) : clearAccumulator l = withBits l w 0 := by
  simp [withBits, clearAccumulator]

/-- A bit before the last joins the bits before it. -/
theorem accumulate_withBits (l : IrLink) (w : FrameWord) {k : Nat} (hk : k < 31) :
    accumulate (withBits l w k) (w.getLsbD k) = withBits l w (k + 1) := by
  have hn : (BitVec.ofNat 6 k).toNat = k := by simp; omega
  rw [accumulate_of_lt _ (by simpa only [withBits, hn] using hk)]
  simp [withBits, setBit_firstBits w (show k < 32 by omega), BitVec.ofNat_add]

/-- The last bit completes the word, which is pushed. -/
theorem accumulate_withBits_last (l : IrLink) (w : FrameWord) :
    accumulate (withBits l w 31) (w.getLsbD 31) = clearAccumulator (push l w) := by
  have hword : setBit (withBits l w 31).accBits (withBits l w 31).accN (w.getLsbD 31) = w := setBit_firstBits_last w
  rw [accumulate_of_last _ rfl, hword, withBits, push_accumulator]
  rfl

/-! ## One interval between two edges (R101, R104) -/

/-- The interval that `n` quiet µs leave measured, where it stays below `MEAS_WRAP` (R116). -/
theorem countMeasure_iterate_of_lt {p : Config.Params} {x n : Nat} (h : ∀ m ∈ p.measWrap, x + n < m) :
    (countMeasure p)^[n] x = x + n := by
  induction n with
  | zero => rfl
  | succ n ih =>
    rw [Function.iterate_succ_apply', ih fun m hm => Nat.lt_of_succ_lt (h m hm), countMeasure]
    cases hw : p.measWrap with
    | none => rfl
    | some m => exact Nat.mod_eq_of_lt (h m hw)

/-- The link right after an actioned edge (R104, R105): both counters at 0, `Receiving`, reception enabled, the
quiet-channel timeout running. -/
structure JustAfterEdge (l : IrLink) : Prop where
  link : l.link = .receiving
  edgeEn : l.edgeEn = true
  tmrCnt : l.tmrCnt = 0
  tmrPer : l.tmrPer = 45000
  measCnt : l.measCnt = 0

theorem justAfterEdge_edge (p : Config.Params) {l : IrLink} (he : l.edgeEn = true) (hper : l.tmrPer = 45000) :
    JustAfterEdge (edge p l) :=
  ⟨edge_link p l, (edge_edgeEn p l).trans he, edge_tmrCnt p l, (edge_tmrPer p l).trans hper, edge_measCnt p l⟩

theorem justAfterEdge_withBits {l : IrLink} (h : JustAfterEdge l) (w : FrameWord) (k : Nat) :
    JustAfterEdge (withBits l w k) := ⟨h.link, h.edgeEn, h.tmrCnt, h.tmrPer, h.measCnt⟩

/-- A `TICK` with one edge, reception enabled, is that edge. -/
theorem exec_tick_one {s : State} (h0 : s.fault = none) (he : s.ir.edgeEn = true) (hper : s.ir.tmrPer = 45000) :
    exec (.tick 1) s =
      .next { s with ir := edge s.params (passMicrosecond s.params s.ir), out := ⟨none, .none⟩ } := by
  have hpos : s.ir.tmrPer ≠ 0 := by rw [hper]; decide
  rw [exec_tick h0, tick_edges _ Nat.one_pos he hpos, edges_one s.params (l := passMicrosecond s.params s.ir) he]

theorem justAfterEdge_of_tick_one {s t : State} (h0 : s.fault = none) (he : s.ir.edgeEn = true)
    (hper : s.ir.tmrPer = 45000) (h : exec (.tick 1) s = .next t) :
    t.fault = none ∧ t.params = s.params ∧ JustAfterEdge t.ir := by
  rw [exec_tick_one h0 he hper] at h
  obtain rfl := Host.Outcome.next.inj h
  exact ⟨h0, rfl, justAfterEdge_edge (l := passMicrosecond s.params s.ir) s.params he hper⟩

/-- An edge whose interval is `n` hands the symbol of `n` to the accumulator; the link is otherwise as after the edge
before. -/
theorem edge_of_justAfterEdge (p : Config.Params) {l : IrLink} (h : JustAfterEdge l) (n : Nat) (c : BitVec 16) :
    edge p { l with measCnt := n, tmrCnt := c } = receiveSymbol l (classifySymbol p n) := by
  obtain ⟨hlink, -, hcnt, -, hmeas⟩ := h
  rw [edge, ← hlink, ← hcnt, ← hmeas]

/-- From one edge to the next, `n` µs later: the link receives the symbol of `n`. -/
theorem runOps_edgeAfter {s : State} {n : Nat} (h0 : s.fault = none) (h : JustAfterEdge s.ir) (hpos : 0 < n)
    (hquiet : n ≤ 45000) (hwrap : ∀ m ∈ s.params.measWrap, n < m) :
    ∃ t, runOps (edgeAfter n) s = .next t ∧ t.fault = none ∧ t.params = s.params ∧
      t.ir = receiveSymbol s.ir (classifySymbol s.params n) := by
  obtain ⟨n, rfl⟩ : ∃ k, n = k + 1 := ⟨n - 1, by omega⟩
  obtain ⟨u, hrun, hfault, hparams, hir⟩ :=
    runOps_wait_of_lt n h0 (by rw [h.tmrCnt, h.tmrPer]; simp; omega)
  have hedge := exec_tick_one hfault (by rw [hir]; exact h.edgeEn) (by rw [hir]; exact h.tmrPer)
  have hmeas : countMeasure s.params ((countMeasure s.params)^[n] s.ir.measCnt) = n + 1 := by
    rw [← Function.iterate_succ_apply' (countMeasure s.params), h.measCnt,
      countMeasure_iterate_of_lt (by simpa using hwrap), Nat.zero_add]
  refine ⟨_, (runOps_append _ _ hrun).trans (runOps_cons_next [] hedge), hfault, hparams, ?_⟩
  rw [hparams, hir, passMicrosecond, hmeas]
  exact edge_of_justAfterEdge s.params h (n + 1) _

/-! ## The intervals of a frame (R86, R113) -/

/-- The interval `k` of `gap` is within 150 µs of the one between the edges `k` and `k + 1` of the plan of `w`. -/
def GapNearPlan (p : Config.Params) (w : FrameWord) (gap : Nat → Nat) (k : Nat) : Prop :=
  edgeInterval (buildPlan p w) k ≤ gap k + 150 ∧ gap k ≤ edgeInterval (buildPlan p w) k + 150

/-- The edges after the first one, as `n` intervals. -/
def edgeTrain (gap : Nat → Nat) (n : Nat) : List Instr := (List.range n).flatMap fun k => edgeAfter (gap k)

theorem edgeTrain_succ (gap : Nat → Nat) (n : Nat) :
    edgeTrain gap (n + 1) = edgeTrain gap n ++ edgeAfter (gap n) := by
  simp [edgeTrain, List.range_succ]

section Reception

variable {p : Config.Params} {w : FrameWord} {gap : Nat → Nat} {s t : State}

/-- The symbol of the first interval. -/
theorem classifySymbol_near_leader {q : Config.Params} (hclosed : q.tolClosed = true) (hw : p.wf)
    (hgap : GapNearPlan p w gap 0) : classifySymbol q (gap 0) = .start := by
  rw [GapNearPlan, edgeInterval_leader hw] at hgap
  exact classifySymbol_start hclosed hgap.1 hgap.2

/-- The symbol of the interval of data bit `i`. -/
theorem classifySymbol_near_bit {q : Config.Params} (hclosed : q.tolClosed = true) (hw : p.wf) {i : Nat} (hi : i < 32)
    (hgap : GapNearPlan p w gap (i + 1)) : classifySymbol q (gap (i + 1)) = bitSymbol (w.getLsbD i) := by
  rw [GapNearPlan, edgeInterval_bit hw w hi] at hgap
  exact classifySymbol_bit hclosed hgap.1 hgap.2

/-- Every interval of a frame is longer than the jitter and far shorter than the quiet-channel timeout. -/
theorem gap_bounds (hw : p.wf) {k : Nat} (hk : k < 33) (hgap : GapNearPlan p w gap k) :
    0 < gap k ∧ gap k ≤ 13650 := by
  obtain ⟨hlow, hhigh⟩ := hgap
  cases k with
  | zero => rw [edgeInterval_leader hw] at hlow hhigh; omega
  | succ i =>
    rw [edgeInterval_bit hw w (by omega), bitCycle_eq] at hlow hhigh
    have := (w.getLsbD i).toNat_le
    omega

/-- One more interval of a frame. -/
theorem runOps_edgeTrain_succ (hw : p.wf) (hwrap : ∀ m ∈ s.params.measWrap, 13650 < m) {k : Nat} (hk : k < 33)
    (hgap : GapNearPlan p w gap k) (hrun : runOps (edgeTrain gap k) s = .next t) (h0 : t.fault = none)
    (hparams : t.params = s.params) (h : JustAfterEdge t.ir) :
    ∃ u, runOps (edgeTrain gap (k + 1)) s = .next u ∧ u.fault = none ∧ u.params = s.params ∧
      u.ir = receiveSymbol t.ir (classifySymbol s.params (gap k)) := by
  obtain ⟨hpos, hle⟩ := gap_bounds hw hk hgap
  rw [← hparams] at hwrap ⊢
  rw [edgeTrain_succ, runOps_append _ _ hrun]
  exact runOps_edgeAfter h0 h hpos (by omega) fun m hm => Nat.lt_of_le_of_lt hle (hwrap m hm)

/-- The leader clears whatever the accumulator held, and the bits that follow it fill the accumulator in order. -/
theorem runOps_edgeTrain_bits (h0 : s.fault = none) (h : JustAfterEdge s.ir) (hclosed : s.params.tolClosed = true)
    (hwrap : ∀ m ∈ s.params.measWrap, 13650 < m) (hw : p.wf) (hgap : ∀ k < 33, GapNearPlan p w gap k)
    {k : Nat} (hk : k ≤ 31) :
    ∃ t, runOps (edgeTrain gap (k + 1)) s = .next t ∧ t.fault = none ∧ t.params = s.params ∧
      t.ir = withBits s.ir w k := by
  induction k with
  | zero =>
    have hleader := hgap 0 (by decide)
    obtain ⟨t, hrun, hfault, hparams, hir⟩ := runOps_edgeTrain_succ hw hwrap (by decide) hleader rfl h0 rfl h
    refine ⟨t, hrun, hfault, hparams, ?_⟩
    rw [hir, classifySymbol_near_leader hclosed hw hleader, ← clearAccumulator_eq_withBits]
    rfl
  | succ k ih =>
    have hbit := hgap (k + 1) (by omega)
    obtain ⟨t, hrun, hfault, hparams, hir⟩ := ih (by omega)
    have hafter : JustAfterEdge t.ir := by rw [hir]; exact justAfterEdge_withBits h w k
    obtain ⟨u, hrun, hfault, hparams, hnext⟩ :=
      runOps_edgeTrain_succ hw hwrap (by omega) hbit hrun hfault hparams hafter
    refine ⟨u, hrun, hfault, hparams, ?_⟩
    rw [hnext, hir, classifySymbol_near_bit hclosed hw (by omega) hbit, receiveSymbol_bitSymbol,
      accumulate_withBits _ _ (by omega)]

/-- The 33 intervals of a frame push its word and leave the accumulator clear. -/
theorem runOps_edgeTrain_frame (h0 : s.fault = none) (h : JustAfterEdge s.ir) (hclosed : s.params.tolClosed = true)
    (hwrap : ∀ m ∈ s.params.measWrap, 13650 < m) (hw : p.wf) (hgap : ∀ k < 33, GapNearPlan p w gap k) :
    ∃ t, runOps (edgeTrain gap 33) s = .next t ∧ t.ir = clearAccumulator (push s.ir w) := by
  have hbit := hgap 32 (by decide)
  obtain ⟨t, hrun, hfault, hparams, hir⟩ := runOps_edgeTrain_bits h0 h hclosed hwrap hw hgap (Nat.le_refl 31)
  have hafter : JustAfterEdge t.ir := by rw [hir]; exact justAfterEdge_withBits h w 31
  obtain ⟨u, hrun, -, -, hnext⟩ := runOps_edgeTrain_succ hw hwrap (by decide) hbit hrun hfault hparams hafter
  refine ⟨u, hrun, ?_⟩
  rw [hnext, hir, classifySymbol_near_bit hclosed hw (by decide) hbit, receiveSymbol_bitSymbol,
    accumulate_withBits_last]

end Reception

end Sys2Proof.Machine

namespace Sys2Proof.Proofs

open Sys2Proof.Machine

/-- Settles O33: the leader's interval clears the accumulator, each data bit's interval is classified as that bit in
spite of the jitter, and the 32nd bit pushes the word. -/
theorem frameRoundTrip : Obligations.FrameRoundTrip := by
  intro s t p address command gap hfault hen hper hclosed hwrap hw hfirst hgap
  obtain ⟨hfault, hparams, hafter⟩ := justAfterEdge_of_tick_one hfault hen hper hfirst
  rw [← hparams] at hclosed hwrap
  obtain ⟨u, hrun, hir⟩ := runOps_edgeTrain_frame hfault hafter hclosed hwrap hw hgap
  refine ⟨u, hrun, by rw [hir]; rfl, by rw [hir]; rfl, by simp [hir, hafter.link], ?_⟩
  rw [hir, packets_clearAccumulator]
  split
  case isTrue hfull => rw [push_of_full _ hfull]
  case isFalse hroom => exact packets_push _ hroom

end Sys2Proof.Proofs

/-!
PROOFS. The transmit path: `SEND`, its hold, the interval player, and the transmission as a run of TICKs
(`spec/41_ir_transmit.md` rules R89 to R99).
-/

namespace Sys2Proof.Machine

/-! ## A held turn (R13, R154) -/

/-- A turn whose descriptor is an operation of its agent runs that operation (R11, R13). -/
theorem step_of_decode_ok {s : State} {a : Agent} {d : Descriptor} {i : Instr} (h : s.fault = none)
    (hn : nextTurn s = .issue a d) (hd : decode d = .ok i) (ha : agentOf i = a) :
    step s = exec i (afterTurn s a (held i s)) := by
  simp only [step, unlessFaulted_of_none h, hn, hd, if_pos ha]

theorem held_iff (i : Instr) (s : State) : held i s = true ↔ ∃ a c, i = .send a c ∧ s.ir.link ≠ .clearToSend := by
  cases i with
  | send a c => simp [held, sendHeld]
  | _ => simp [held]

/-- A turn whose descriptor stays is used up, like an idle one, and the queues are as before. -/
theorem afterTurn_stays (s : State) (a : Agent) : afterTurn s a true = afterIdle s := by
  cases a <;> rfl

/-! ## A `TICK` while edges are masked (R94, R95, R103) -/

/-- A counter below its largest value does not wrap. -/
theorem toNat_succ_of_lt {n : Nat} {x : BitVec n} (h : x.toNat < 2 ^ n - 1) : (x + 1).toNat = x.toNat + 1 := by
  have hone : (1 : BitVec n).toNat = 1 := (BitVec.toNat_ofNat 1 n).trans (Nat.mod_eq_of_lt (by omega))
  rw [BitVec.toNat_add_of_lt (by omega), hone]

/-- No expiry: both counters count, and an edge is at most remembered. -/
theorem tick_masked_counts (p : Config.Params) (e : Nat) {l : IrLink} (hen : l.edgeEn = false)
    (hcnt : l.tmrCnt + 1 ≠ l.tmrPer) :
    tick p e l =
      { l with
        measCnt := countMeasure p l.measCnt
        tmrCnt := l.tmrCnt + 1
        edgeLatched := l.edgeLatched || (p.edgeLatchTx && decide (0 < e)) } := by
  rw [tick_no_edge p (.inr hen)]
  exact tick_zero p hcnt

/-- The record at an expiry with edges masked, before the player runs: one µs counted, the timer restarted, and an edge
of that µs at most remembered. -/
def atMaskedExpiry (p : Config.Params) (e : Nat) (l : IrLink) : IrLink :=
  { l with
    measCnt := countMeasure p l.measCnt
    tmrCnt := 0
    edgeLatched := l.edgeLatched || (p.edgeLatchTx && decide (0 < e)) }

theorem tick_masked_expires (p : Config.Params) (e : Nat) {l : IrLink} (hlink : l.link = .transmitting)
    (hen : l.edgeEn = false) (hcnt : l.tmrCnt + 1 = l.tmrPer) : tick p e l = player p (atMaskedExpiry p e l) := by
  rw [tick_no_edge p (.inr hen), tick_zero_expires]
  · exact expire_transmitting p (l := atMaskedExpiry p e l) hlink
  · exact hcnt

/-- The expiry of an interval before the last selects the next one. -/
theorem tick_masked_next (p : Config.Params) (e : Nat) {l : IrLink} (hlink : l.link = .transmitting)
    (hen : l.edgeEn = false) (hcnt : l.tmrCnt + 1 = l.tmrPer) (hidx : l.planIdx.toNat < 66) :
    tick p e l =
      { atMaskedExpiry p e l with
        planIdx := l.planIdx + 1
        carrierOn := isMark (readPlan l.plan (l.planIdx.toNat + 1))
        tmrPer := intervalUs (readPlan l.plan (l.planIdx.toNat + 1)) } := by
  have hnext : (l.planIdx + 1).toNat = l.planIdx.toNat + 1 := toNat_succ_of_lt (show l.planIdx.toNat < 127 by omega)
  rw [tick_masked_expires p e hlink hen hcnt, player_of_lt p (l := atMaskedExpiry p e l) hidx, ← hnext]
  rfl

/-- The expiry of the last interval ends the transmission. -/
theorem tick_masked_last (p : Config.Params) (e : Nat) {l : IrLink} (hlink : l.link = .transmitting)
    (hen : l.edgeEn = false) (hcnt : l.tmrCnt + 1 = l.tmrPer) (hidx : l.planIdx = 66) :
    tick p e l = playerDone p { atMaskedExpiry p e l with planIdx := 67 } := by
  rw [tick_masked_expires p e hlink hen hcnt, player_of_last p (l := atMaskedExpiry p e l) hidx]

/-! ## The end of the plan (R95, R96) -/

/-- The link as the player leaves it at the end of the plan. -/
structure TransmissionOver (l : IrLink) : Prop where
  link : l.link = .receiving
  edgeEn : l.edgeEn = true
  carrierOn : l.carrierOn = false
  planIdx : l.planIdx = 0
  tmrCnt : l.tmrCnt = 0
  tmrPer : l.tmrPer = 45000

/-- A remembered edge, handled at the end of the plan, changes none of these fields. -/
theorem transmissionOver_playerDone (p : Config.Params) (l : IrLink) : TransmissionOver (playerDone p l) := by
  rcases playerDone_cases p l with ⟨-, h⟩ | ⟨-, h⟩ <;> rw [h]
  · exact ⟨rfl, rfl, rfl, rfl, rfl, rfl⟩
  · exact ⟨edge_link .., edge_edgeEn .., edge_carrierOn .., edge_planIdx .., edge_tmrCnt .., edge_tmrPer ..⟩

/-- All that a `TICK` can do to the link state while the plan is played: nothing, or the end of the last interval. -/
theorem tick_link_of_transmitting (p : Config.Params) (e : Nat) {l : IrLink} (hlink : l.link = .transmitting)
    (hen : l.edgeEn = false) (hidx : l.planIdx.toNat < 67) :
    (tick p e l).link = .transmitting ∨
      (l.planIdx = 66 ∧ l.tmrCnt + 1 = l.tmrPer ∧ (tick p e l).link = .receiving) := by
  by_cases hcnt : l.tmrCnt + 1 = l.tmrPer
  · by_cases hlast : l.planIdx.toNat < 66
    · rw [tick_masked_next p e hlink hen hcnt hlast]
      exact .inl hlink
    · have hlast : l.planIdx = 66 := BitVec.eq_of_toNat_eq (show _ = 66 by omega)
      rw [tick_masked_last p e hlink hen hcnt hlast]
      exact .inr ⟨hlast, hcnt, (transmissionOver_playerDone p _).link⟩
  · rw [tick_masked_counts p e hen hcnt]
    exact .inl hlink

/-! ## Runs of TICKs -/

/-- The IR Link record after one `TICK` for each number of edges in `es`. -/
def ticks (p : Config.Params) (es : List Nat) (l : IrLink) : IrLink := es.foldl (fun l e => tick p e l) l

theorem ticks_concat (p : Config.Params) (es : List Nat) (e : Nat) (l : IrLink) :
    ticks p (es ++ [e]) l = tick p e (ticks p es l) := by simp [ticks]

/-- A run of TICKs always completes (R101). -/
theorem runOps_ticks (es : List Nat) {s : State} (h0 : s.fault = none) :
    ∃ t, runOps (es.map .tick) s = .next t ∧ t.ir = ticks s.params es s.ir := by
  induction es generalizing s with
  | nil => exact ⟨s, rfl, rfl⟩
  | cons e es ih =>
    obtain ⟨t, hrun, hir⟩ :=
      ih (s := { s with ir := tick s.params e s.ir, out := ⟨none, .none⟩ }) h0
    exact ⟨t, (runOps_cons_next _ (exec_tick h0 e)).trans hrun, hir⟩

/-! ## The timeline of a transmission (R97) -/

/-- Interval `k` of `plan` has been playing for `j` µs. -/
structure Playing (plan : Vector (BitVec 16) Config.planLen) (k j : Nat) (l : IrLink) : Prop where
  link : l.link = .transmitting
  edgeEn : l.edgeEn = false
  planIdx : l.planIdx.toNat = k
  tmrCnt : l.tmrCnt.toNat = j
  tmrPer : l.tmrPer = intervalUs (readPlan plan k)
  carrierOn : l.carrierOn = isMark (readPlan plan k)
  plan : l.plan = plan

/-- `SEND` starts interval 0 (R89). -/
theorem playing_startTransmission (p : Config.Params) (w : FrameWord) (l : IrLink) :
    Playing (buildPlan p w) 0 0 (startTransmission p w l) := by
  rw [startTransmission_eq]
  refine ⟨rfl, rfl, rfl, rfl, ?_, ?_, rfl⟩ <;> rw [readPlan_buildPlan_zero] <;> rfl

section Timeline

variable {plan : Vector (BitVec 16) Config.planLen} {k j : Nat} {l : IrLink}

/-- The timer's next value, as a number: it cannot wrap below its period. -/
theorem toNat_tmrCnt_succ (h : Playing plan k j l) (hj : j < (intervalUs (readPlan plan k)).toNat) :
    (l.tmrCnt + 1).toNat = j + 1 := by
  have hlt := (intervalUs (readPlan plan k)).isLt
  rw [toNat_succ_of_lt (by rw [h.tmrCnt]; omega), h.tmrCnt]

theorem tmrCnt_succ_eq_tmrPer_iff (h : Playing plan k j l) (hj : j < (intervalUs (readPlan plan k)).toNat) :
    l.tmrCnt + 1 = l.tmrPer ↔ j + 1 = (intervalUs (readPlan plan k)).toNat := by
  rw [← BitVec.toNat_inj, toNat_tmrCnt_succ h hj, h.tmrPer]

/-- Within an interval, a µs with any edges only counts. -/
theorem playing_tick_within (p : Config.Params) (e : Nat) (h : Playing plan k j l)
    (hj : j + 1 < (intervalUs (readPlan plan k)).toNat) : Playing plan k (j + 1) (tick p e l) := by
  have hcnt : l.tmrCnt + 1 ≠ l.tmrPer := by
    rw [Ne, tmrCnt_succ_eq_tmrPer_iff h (by omega)]
    omega
  rw [tick_masked_counts p e h.edgeEn hcnt]
  exact { h with tmrCnt := toNat_tmrCnt_succ h (by omega) }

/-- The last µs of an interval before the last starts the next one (R94). -/
theorem playing_tick_next (p : Config.Params) (e : Nat) (h : Playing plan k j l) (hk : k < 66)
    (hj : j + 1 = (intervalUs (readPlan plan k)).toNat) : Playing plan (k + 1) 0 (tick p e l) := by
  have hidx : l.planIdx.toNat < 66 := by rw [h.planIdx]; exact hk
  rw [tick_masked_next p e h.link h.edgeEn ((tmrCnt_succ_eq_tmrPer_iff h (by omega)).mpr hj) hidx, h.planIdx, h.plan]
  refine ⟨h.link, h.edgeEn, ?_, rfl, rfl, rfl, h.plan⟩
  rw [toNat_succ_of_lt (by omega), h.planIdx]

/-- The last µs of the last interval ends the transmission (R95). -/
theorem transmissionOver_tick (p : Config.Params) (e : Nat) (h : Playing plan 66 j l)
    (hj : j + 1 = (intervalUs (readPlan plan 66)).toNat) : TransmissionOver (tick p e l) := by
  rw [tick_masked_last p e h.link h.edgeEn ((tmrCnt_succ_eq_tmrPer_iff h (by omega)).mpr hj)
    (BitVec.eq_of_toNat_eq h.planIdx)]
  exact transmissionOver_playerDone p _

/-- R97 on the record: `S(k) + j` µs after the start of a plan whose intervals have a length, interval `k` has been
playing for `j` µs. -/
theorem playing_ticks (p : Config.Params) (hpos : ∀ i < 67, 0 < (intervalUs (readPlan plan i)).toNat)
    (h : Playing plan 0 0 l) {es : List Nat} (hk : k < 67) (hj : j < (intervalUs (readPlan plan k)).toNat)
    (hlen : es.length = planStart plan k + j) : Playing plan k j (ticks p es l) := by
  induction es using List.reverseRecOn generalizing k j with
  | nil =>
    cases k with
    | zero =>
      obtain rfl : j = 0 := by simpa [planStart] using hlen.symm
      exact h
    | succ k =>
      have := hpos k (by omega)
      rw [planStart_succ, List.length_nil] at hlen
      omega
  | append_singleton es e ih =>
    rw [List.length_append, List.length_singleton] at hlen
    rw [ticks_concat]
    match j, k with
    | j + 1, k => exact playing_tick_within p e (ih hk (Nat.lt_of_succ_lt hj) (by omega)) hj
    | 0, 0 => simp [planStart] at hlen
    | 0, k + 1 =>
      have := hpos k (by omega)
      rw [planStart_succ] at hlen
      exact playing_tick_next p e (ih (j := (intervalUs (readPlan plan k)).toNat - 1) (by omega) (by omega) (by omega))
        (by omega) (by omega)

/-- R97 on the record: at `S(67)` the transmission is over. -/
theorem transmissionOver_ticks (p : Config.Params) (hpos : ∀ i < 67, 0 < (intervalUs (readPlan plan i)).toNat)
    (h : Playing plan 0 0 l) {es : List Nat} (hlen : es.length = planStart plan 67) :
    TransmissionOver (ticks p es l) := by
  have := hpos 66 (by decide)
  rw [planStart_succ] at hlen
  cases es using List.reverseRecOn with
  | nil => rw [List.length_nil] at hlen; omega
  | append_singleton es e =>
    rw [List.length_append, List.length_singleton] at hlen
    rw [ticks_concat]
    exact transmissionOver_tick p e
      (playing_ticks p hpos h (j := (intervalUs (readPlan plan 66)).toNat - 1) (by decide) (by omega) (by omega))
      (by omega)

end Timeline

/-- The player never meets an interval of length 0 in a built plan (R67). -/
theorem intervalUs_buildPlan_pos {p : Config.Params} (hw : p.wf) (w : FrameWord) {i : Nat} (hi : i < 67) :
    0 < (intervalUs (readPlan (buildPlan p w) i)).toNat := by
  rw [intervalUs_buildPlan hw w hi]
  exact Int.natAbs_pos.mpr (planEntry_bounds hw w i).1

/-- `SEND` and the TICKs after it, as one run. -/
theorem runOps_send_ticks (address : BitVec 16) (command : BitVec 8) (es : List Nat) {s : State}
    (h0 : s.fault = none) (hl : s.ir.link = .clearToSend) :
    ∃ t, runOps (.send address command :: es.map .tick) s = .next t ∧
      t.ir = ticks s.params es (startTransmission s.params (frameWord address command) s.ir) := by
  rw [runOps_cons_next _ (exec_send h0 hl address command)]
  exact runOps_ticks es h0

end Sys2Proof.Machine

namespace Sys2Proof.Proofs

open Sys2Proof.Machine Sys2Proof.Laws

/-- Settles O19: the two branches of `SEND`, the first interval of every plan being the leader mark. -/
theorem sendStartsTransmission : Obligations.SendStartsTransmission := by
  intro s address command hfault
  refine ⟨fun hclear => ⟨_, exec_send hfault hclear address command, ?_⟩,
    fun hbusy => exec_send_held hfault hbusy address command⟩
  rw [startTransmission_eq]

/-- Settles O7: a held turn puts the descriptor back where it was, so that it is an idle turn. -/
theorem heldSendStaysAtHead : Obligations.HeldSendStaysAtHead := by
  refine ⟨held_iff, fun s address command hfault hturn hbusy => ?_⟩
  have hdecode : decode (encode (.send address command)) = .ok (.send address command) :=
    (decode_eq_ok_iff _ _).mpr ⟨trivial, rfl⟩
  have hheld : held (.send address command) s = true := (held_iff _ s).mpr ⟨address, command, rfl, hbusy⟩
  rw [step_of_decode_ok hfault hturn hdecode rfl, hheld, afterTurn_stays]
  exact exec_send_held (s := afterIdle s) hfault hbusy address command

/-- Settles O20: along the TICKs the player is in interval `k` at `j` µs, by induction on the TICKs, since every
interval of a built plan has a length. -/
theorem transmitTimeline : Obligations.TransmitTimeline := by
  intro s address command es hfault hw hclear
  have hpos (i : Nat) (hi : i < 67) := intervalUs_buildPlan_pos hw (frameWord address command) hi
  have hstart := playing_startTransmission s.params (frameWord address command) s.ir
  obtain ⟨t, hrun, hir⟩ := runOps_send_ticks address command es hfault hclear
  refine ⟨fun k j hk hj hlen => ⟨t, hrun, ?playing⟩, planStart_frame hw _, fun hlen => ⟨t, hrun, ?ended⟩⟩
  case playing =>
    have h := playing_ticks s.params hpos hstart hk hj hlen
    rw [hir]
    exact ⟨h.link, h.edgeEn, h.planIdx, h.tmrCnt, h.carrierOn⟩
  case ended =>
    have h := transmissionOver_ticks s.params hpos hstart hlen
    rw [hir]
    exact ⟨h.link, h.edgeEn, h.carrierOn, h.planIdx, h.tmrCnt, h.tmrPer⟩

/-- Settles O21: of the operations that write the IR Link record, `SEND` is held, `RECV` writes the consumer index
alone, and a `TICK` leaves `Transmitting` only at the end of the last interval. -/
theorem transmissionCannotBeAborted : Obligations.TransmissionCannotBeAborted := by
  intro i s t hfault hinv hlink hexec
  have other (h : t.ir = s.ir) : t.ir.link = .transmitting := by rw [h, hlink]
  cases i with
  | tick e =>
    obtain ⟨-, ⟨hmask, -, hplay, -⟩, -⟩ := hinv
    have hen : s.ir.edgeEn = false := by simpa [hlink] using hmask
    obtain ⟨hidx, -⟩ := hplay hlink
    rw [exec_tick hfault] at hexec
    obtain rfl := Host.Outcome.next.inj hexec
    rcases tick_link_of_transmitting s.params e hlink hen hidx with hstay | ⟨hlast, hcnt, hend⟩
    · exact .inl hstay
    · exact .inr (.inl ⟨e, rfl, hlast, hcnt, hend⟩)
  | reset =>
    obtain ⟨a, -, rfl⟩ | ⟨info, -, rfl⟩ := exec_reset_next hexec
    · exact .inr (.inr ⟨rfl, rfl⟩)
    · exact .inl hlink
  | send a c =>
    obtain ⟨hclear, -⟩ | ⟨-, rfl⟩ := exec_send_next hexec
    · rw [hlink] at hclear
      cases hclear
    · exact .inl hlink
  | recv =>
    obtain ⟨-, h⟩ | ⟨-, rfl⟩ := exec_recv_next hexec
    · exact .inl (other (by rw [h]))
    · exact .inl hlink
  | _ => exact .inl (other (exec_ir hexec (by simp) (by simp) (by simp) (by simp)))

/-- Settles O23: `TICK` writes the IR Link record alone, and no path through it pushes more than one packet. -/
theorem tickCompletesAndFrames : Obligations.TickCompletesAndFrames := by
  intro s e hfault
  obtain ⟨hplan, htail, hring⟩ := tick_pushes s.params e s.ir
  refine ⟨_, exec_tick hfault e, rfl, hplan, htail, ?_⟩
  rcases hring with ⟨hring, hhead⟩ | ⟨-, hhead, w, hring⟩
  · exact .inl ⟨hhead, hring⟩
  · refine .inr ⟨hhead, fun j hj => ?_⟩
    rw [hring, readRing_writeRing _ s.ir.head.isLt, if_neg hj]

/-- Settles O26: the masked edges of the µs are at most remembered, and the expiry then runs the player, before the end
of the plan or at it. -/
theorem playerStepsThePlan : Obligations.PlayerStepsThePlan := by
  intro s e hfault hlink hen hcnt
  refine ⟨fun hidx => ⟨_, exec_tick hfault e, ?next⟩, fun hidx => ⟨_, exec_tick hfault e, ?last⟩⟩
  case next =>
    rw [tick_masked_next s.params e hlink hen hcnt hidx]
    rfl
  case last =>
    rw [tick_masked_last s.params e hlink hen hcnt hidx]
    rfl

end Sys2Proof.Proofs

/-!
PROOFS. The time step of the receive path: actioned and masked edges, expiries, the accumulator, and the quiet-channel
timeout (`spec/42_ir_receive.md` rules R101 to R114).
-/

namespace Sys2Proof.Machine

/-! ## Actioned edges (R102, R104) -/

/-- Whatever the link state was, actioned edges leave it `Receiving` (R105). -/
theorem edges_link (p : Config.Params) {e : Nat} (he : 0 < e) {l : IrLink} (hen : l.edgeEn = true) :
    (edges p e l).link = .receiving := by
  rcases edges_enabled p he hen with h | h <;> simp [h]

/-- In `Receiving` the expiry test writes the timer and the link state alone (R107). -/
theorem checkExpiry_receiving (p : Config.Params) {l : IrLink} (h : l.link = .receiving) :
    ∃ c k, checkExpiry p l = { l with tmrCnt := c, link := k } := by
  rw [checkExpiry]
  split
  · exact ⟨0, .clearToSend, expire_receiving p h⟩
  · exact ⟨l.tmrCnt, l.link, rfl⟩

/-- After actioned edges the rest of the `TICK` writes the timer and the link state alone, even where the period is 0. -/
theorem tick_actioned (p : Config.Params) {e : Nat} (he : 0 < e) {l : IrLink} (hen : l.edgeEn = true) :
    ∃ c k, tick p e l = { edges p e (passMicrosecond p l) with tmrCnt := c, link := k } :=
  checkExpiry_receiving p (edges_link p he (l := passMicrosecond p l) hen)

/-! ## The accumulator and the ring (R110, R111) -/

/-- The record `m` has the accumulator and the ring that the data bit `b` makes of those of `l` (R110, R117). -/
def StoresBit (l m : IrLink) (b : Bool) : Prop :=
  ∃ w : FrameWord,
    (∀ j, w.getLsbD j = if j = l.accN.toNat then b else l.accBits.getLsbD j) ∧
    (l.accN.toNat < 31 → m.accN = l.accN + 1 ∧ m.accBits = w ∧ m.ring = l.ring ∧ m.head = l.head) ∧
    (l.accN.toNat = 31 →
      m.accN = 0 ∧ m.accBits = 0 ∧
      (l.head + 1 = l.tail → m.ring = l.ring ∧ m.head = l.head) ∧
      (l.head + 1 ≠ l.tail →
        m.head = l.head + 1 ∧ readRing m.ring l.head.toNat = w ∧
        ∀ j, j ≠ l.head.toNat → readRing m.ring j = readRing l.ring j))

theorem storesBit_accumulate (l : IrLink) (b : Bool) (h : l.accN.toNat ≤ 31) : StoresBit l (accumulate l b) b := by
  refine ⟨setBit l.accBits l.accN b, fun j => setBit_getLsbD _ _ _ j (by omega), fun hlt => ?stored, fun hlast => ?framed⟩
  case stored =>
    rw [accumulate_of_lt b hlt]
    exact ⟨rfl, rfl, rfl, rfl⟩
  case framed =>
    rw [accumulate_of_last b hlast]
    refine ⟨rfl, rfl, fun hfull => ?_, fun hroom => ?_⟩
    · rw [push_of_full _ hfull]
      exact ⟨rfl, rfl⟩
    · rw [push_of_room _ hroom]
      refine ⟨rfl, ?_, fun j hj => ?_⟩
      · exact (readRing_writeRing l.ring l.head.isLt _ _).trans (if_pos rfl)
      · exact (readRing_writeRing l.ring l.head.isLt _ j).trans (if_neg hj)

/-- An edge whose interval is a data bit (R104, R110). -/
theorem storesBit_edge (p : Config.Params) {l : IrLink} {b : Bool} (h : l.accN.toNat ≤ 31)
    (hsym : classifySymbol p l.measCnt = bitSymbol b) : StoresBit l (edge p l) b := by
  rw [edge, hsym, receiveSymbol_bitSymbol]
  exact storesBit_accumulate { l with measCnt := 0, tmrCnt := 0, link := .receiving } b h

/-- An edge whose interval is no data bit (R104, R111). -/
theorem edge_of_no_bit (p : Config.Params) {l : IrLink}
    (hsym : classifySymbol p l.measCnt = .start ∨ classifySymbol p l.measCnt = .repeatMark ∨
      classifySymbol p l.measCnt = .noise) :
    edge p l = clearAccumulator { l with measCnt := 0, tmrCnt := 0, link := .receiving } := by
  rcases hsym with h | h | h <;> rw [edge, h, receiveSymbol]

/-! ## The quiet-channel timeout (R107, R108) -/

/-- Where reception is enabled, only an expiry without an edge makes `Receiving` into `ClearToSend` (R102). -/
theorem tick_receiving_clearToSend (p : Config.Params) {e : Nat} {l : IrLink} (hlink : l.link = .receiving)
    (hen : l.edgeEn = true) (hper : l.tmrPer ≠ 0) (h : (tick p e l).link = .clearToSend) :
    e = 0 ∧ l.tmrCnt + 1 = l.tmrPer := by
  rcases Nat.eq_zero_or_pos e with rfl | he
  · rcases tick_zero_cases p l with ⟨-, hcounts⟩ | ⟨hcnt, -⟩
    · rw [hcounts, passMicrosecond_link, hlink] at h
      cases h
    · exact ⟨rfl, hcnt⟩
  · rw [tick_edges p he hen hper, edges_link p he (l := passMicrosecond p l) hen] at h
    cases h

/-- The only `TICK` that makes the link `ClearToSend` (R108): the player ends in `Receiving`. -/
theorem tick_clearToSend (p : Config.Params) {e : Nat} {l : IrLink} (hinv : LinkInv p l)
    (hnot : l.link ≠ .clearToSend) (h : (tick p e l).link = .clearToSend) :
    e = 0 ∧ l.link = .receiving ∧ l.tmrCnt.toNat + 1 = 45000 := by
  obtain ⟨hmask, hrecv, hplay, -⟩ := hinv
  cases hlink : l.link with
  | clearToSend => exact absurd hlink hnot
  | transmitting =>
    have hen : l.edgeEn = false := by simpa [hlink] using hmask
    obtain ⟨hidx, -⟩ := hplay hlink
    rcases tick_link_of_transmitting p e hlink hen hidx with hstay | ⟨-, -, hend⟩
    · rw [hstay] at h
      cases h
    · rw [hend] at h
      cases h
  | receiving =>
    have hsilent : l.link ≠ .transmitting := by simp [hlink]
    obtain ⟨hquiet, -⟩ := hrecv hsilent
    have hper : l.tmrPer = 45000 := BitVec.eq_of_toNat_eq hquiet
    have hpos : l.tmrPer ≠ 0 := by rw [hper]; decide
    obtain ⟨rfl, hcnt⟩ := tick_receiving_clearToSend p hlink (hmask.mpr hsilent) hpos h
    exact ⟨rfl, rfl, by bv_omega⟩

/-- Quiet µs up to the period leave the link `Receiving` before it and make it `ClearToSend` at it (R108). -/
theorem runOps_wait_receiving (n : Nat) {s : State} (h0 : s.fault = none) (hlink : s.ir.link = .receiving)
    (hcnt : s.ir.tmrCnt.toNat < s.ir.tmrPer.toNat) (hn : s.ir.tmrCnt.toNat + n ≤ s.ir.tmrPer.toNat) :
    ∃ t, runOps (wait n) s = .next t ∧
      t.ir.link = if s.ir.tmrCnt.toNat + n = s.ir.tmrPer.toNat then .clearToSend else .receiving := by
  split
  case isFalse hbefore =>
    obtain ⟨t, hrun, -, -, hir⟩ := runOps_wait_of_lt n h0 (by omega)
    exact ⟨t, hrun, by rw [hir]; exact hlink⟩
  case isTrue hat =>
    obtain ⟨n, rfl⟩ : ∃ k, n = k + 1 := ⟨n - 1, by omega⟩
    obtain ⟨t, hrun, hfault, -, hir⟩ := runOps_wait_of_lt n h0 (by omega)
    have hexpires : t.ir.tmrCnt + 1 = t.ir.tmrPer := by
      rw [hir]
      bv_omega
    have hreceiving : t.ir.link = .receiving := by rw [hir]; exact hlink
    have hexec := exec_tick hfault 0
    rw [tick_zero_expires _ hexpires,
      expire_receiving _ (l := { passMicrosecond t.params t.ir with tmrCnt := 0 }) hreceiving] at hexec
    have hlast : runOps (wait (n + 1)) s = runOps [.tick 0] t := by
      rw [wait, List.replicate_succ']
      exact runOps_append (wait n) _ hrun
    exact ⟨_, hlast.trans (runOps_cons_next [] hexec), rfl⟩

end Sys2Proof.Machine

namespace Sys2Proof.Proofs

open Sys2Proof.Machine

/-- Settles O27: what the masked edges leave is the remembered edge, and the rest of the `TICK` is the same. -/
theorem maskedEdgesAreNotActioned : Obligations.MaskedEdgesAreNotActioned := by
  intro s e hfault hen
  rw [exec_tick hfault, tick_no_edge s.params (.inr hen), exec_tick]
  exact hfault

/-- Settles O28: after an actioned edge the timer is at 0 and so not at its period, so that nothing expires. -/
theorem edgeBeatsExpiry : Obligations.EdgeBeatsExpiry := by
  intro s e hfault hen he hper
  refine ⟨_, exec_tick hfault e, ?_⟩
  have hpass : (passMicrosecond s.params s.ir).edgeEn = true := hen
  rw [tick_edges _ he hen hper]
  rcases edges_enabled s.params he hpass with h | h <;> simp [h, hen]

/-- Settles O29: an expiry after the edges does not touch the accumulator, which the first edge updates by its symbol
and every later one, measuring 0 µs, clears. -/
theorem edgeUpdatesAccumulator : Obligations.EdgeUpdatesAccumulator := by
  intro s hfault hen hbits
  have hpass : (passMicrosecond s.params s.ir).edgeEn = true := hen
  refine ⟨⟨_, exec_tick hfault 1, ?one⟩, fun e he => ⟨_, exec_tick hfault e, ?many⟩⟩
  case one =>
    obtain ⟨c, k, htick⟩ := tick_actioned s.params Nat.one_pos hen
    rw [htick, edges_one s.params hpass]
    refine ⟨fun b hsym => ?_, fun hsym => ?_⟩
    · exact storesBit_edge s.params (l := passMicrosecond s.params s.ir) hbits hsym
    · rw [edge_of_no_bit s.params (l := passMicrosecond s.params s.ir) hsym]
      exact ⟨rfl, rfl, rfl, rfl⟩
  case many =>
    obtain ⟨n, rfl⟩ : ∃ n, e = n + 2 := ⟨e - 2, by omega⟩
    obtain ⟨c, k, htick⟩ := tick_actioned s.params (Nat.succ_pos (n + 1)) hen
    rw [htick, edges_of_many s.params n hpass]
    exact ⟨rfl, rfl⟩

/-- Settles O31: forwards by the run of quiet TICKs to the expiry, backwards by the operations that write the link state,
of which `SEND` and `RESET` never make it `ClearToSend`. -/
theorem quietProofBeforeClearToSend : Obligations.QuietProofBeforeClearToSend := by
  refine ⟨fun s n hfault hlink hper hcnt hn => ?forwards, fun i s t hfault hinv hexec hnot hclear => ?backwards⟩
  case forwards =>
    have hper : s.ir.tmrPer.toNat = 45000 := by rw [hper]; rfl
    rw [← hper] at hcnt hn ⊢
    exact runOps_wait_receiving n hfault hlink hcnt hn
  case backwards =>
    have other (h : t.ir.link = s.ir.link) : False := hnot (h ▸ hclear)
    cases i with
    | tick e =>
      obtain ⟨-, hinv, -⟩ := hinv
      rw [exec_tick hfault] at hexec
      obtain rfl := Host.Outcome.next.inj hexec
      obtain ⟨rfl, hlink, hcnt⟩ := tick_clearToSend s.params hinv hnot hclear
      exact ⟨rfl, hlink, hcnt⟩
    | reset =>
      obtain ⟨a, -, rfl⟩ | ⟨info, -, rfl⟩ := exec_reset_next hexec
      · cases hclear
      · exact absurd hclear hnot
    | send a c =>
      obtain ⟨hlink, -⟩ | ⟨-, rfl⟩ := exec_send_next hexec
      · exact absurd hlink hnot
      · exact absurd hclear hnot
    | recv =>
      obtain ⟨-, h⟩ | ⟨-, rfl⟩ := exec_recv_next hexec
      · exact (other (by rw [h])).elim
      · exact absurd hclear hnot
    | _ => exact (other (by rw [exec_ir hexec (by simp) (by simp) (by simp) (by simp)])).elim

/-- Settles O25: the timer is reloaded, and the expiry then does what its link state says. -/
theorem quietExpiry : Obligations.QuietExpiry := by
  intro s hfault hcnt
  refine ⟨fun hlink => ⟨_, exec_tick hfault 0, ?_⟩, fun hlink => ⟨_, exec_tick hfault 0, ?_⟩⟩ <;>
    rw [tick_zero_expires _ hcnt]
  · rw [expire_receiving _ (l := { passMicrosecond s.params s.ir with tmrCnt := 0 }) hlink]
    rfl
  · rw [expire_clearToSend _ (l := { passMicrosecond s.params s.ir with tmrCnt := 0 }) hlink]
    rfl

/-- Settles O35: `LSTAT` delivers the link's code, and each of the three codes is the one that R70 gives. -/
theorem lstatReturnsLinkCode : Obligations.LstatReturnsLinkCode := by
  intro s hfault
  rw [exec_lstat hfault]
  cases s.ir.link <;> rfl

end Sys2Proof.Proofs

/-!
PROOFS. The packet ring as a first-in first-out queue: `PUSH`, `RECV`, and what every other operation leaves
(`spec/43_packet_queue.md` rules R117 to R123).
-/

namespace Sys2Proof.Machine

/-! ## The queue by its two indices (R29, R118) -/

theorem packets_eq_nil_iff (l : IrLink) : packets l = [] ↔ l.head = l.tail := by
  rw [← List.length_eq_zero_iff, packets_length]
  constructor <;> intro h <;> bv_omega

/-- One entry of the ring always stays free (R118). -/
theorem packets_length_le (l : IrLink) : (packets l).length ≤ 255 := by
  rw [packets_length]
  exact Nat.le_of_lt_succ (l.head - l.tail).isLt

/-- The oldest packet is the one at the consumer index, and advancing that index leaves the rest (R120, R122). -/
theorem packets_eq_cons {l : IrLink} (h : l.head ≠ l.tail) :
    packets l = readRing l.ring l.tail.toNat :: packets { l with tail := l.tail + 1 } := by
  have hcount : (l.head - l.tail).toNat = (l.head - (l.tail + 1)).toNat + 1 := by bv_omega
  have hplace (k : Nat) : l.tail + BitVec.ofNat 8 (k + 1) = l.tail + 1 + BitVec.ofNat 8 k := by bv_omega
  rw [packets_eq, packets_eq, hcount, List.range_succ_eq_map, List.map_cons, List.map_map]
  refine congrArg₂ List.cons (by rw [BitVec.add_zero]) (List.map_congr_left fun k _ => ?_)
  rw [Function.comp_apply, hplace]

/-- A packet pushed joins the end; nothing else about the queue changes (R117, R119). -/
theorem PushesAtMostOne.packets_eq_append {l m : IrLink} (h : PushesAtMostOne l m) :
    ∃ new, packets m = packets l ++ new ∧ new.length ≤ 1 := by
  obtain ⟨-, htail, ⟨hring, hhead⟩ | ⟨hroom, hhead, w, hring⟩⟩ := h
  · exact ⟨[], by rw [packets_congr hring hhead htail, List.append_nil], Nat.zero_le 1⟩
  · have hpush : packets m = packets (push l w) := by
      rw [push_of_room w hroom]
      exact packets_congr hring hhead htail
    exact ⟨[w], hpush.trans (packets_push w hroom), Nat.le_refl 1⟩

/-! ## The operations on the queue -/

/-- `RECV` on a ring that holds a packet takes the oldest (R120). -/
theorem packets_recv {s t : State} (h : exec .recv s = .next t) (hsome : packets s.ir ≠ []) :
    ∃ w, packets s.ir = w :: packets t.ir ∧ t.out.result = some w.toNat := by
  obtain ⟨hempty, -⟩ | ⟨hne, rfl⟩ := exec_recv_next h
  · exact absurd ((packets_eq_nil_iff s.ir).mpr hempty) hsome
  · exact ⟨_, packets_eq_cons hne, rfl⟩

/-- `RECV` on an empty ring leaves it empty (R120, R121). -/
theorem packets_recv_empty {s t : State} (h : exec .recv s = .next t) (hnil : packets s.ir = []) :
    packets t.ir = [] := by
  obtain ⟨-, ht⟩ | ⟨hne, -⟩ := exec_recv_next h
  · rw [ht]
    exact hnil
  · exact absurd ((packets_eq_nil_iff s.ir).mp hnil) hne

theorem packets_tick {s t : State} {e : Nat} (h : exec (.tick e) s = .next t) :
    ∃ new, packets t.ir = packets s.ir ++ new ∧ new.length ≤ 1 := by
  rw [exec_tick (exec_next_fault h)] at h
  obtain rfl := Host.Outcome.next.inj h
  exact (tick_pushes s.params e s.ir).packets_eq_append

/-- A `RESET` that does not raise sets both indices to 0 (R171). -/
theorem packets_reset {s t : State} (h : exec .reset s = .next t) (hfault : t.fault = none) : packets t.ir = [] := by
  obtain ⟨a, -, rfl⟩ | ⟨info, -, rfl⟩ := exec_reset_next h
  · exact (packets_eq_nil_iff (resetLink s.draws)).mpr rfl
  · cases hfault

/-- Of the other operations only `SEND` writes the IR Link record, and it writes no field of the ring (R89). -/
theorem packets_of_other {i : Instr} {s t : State} (h : exec i s = .next t) (hrecv : i ≠ .recv)
    (htick : ∀ e, i ≠ .tick e) (hreset : i ≠ .reset) : packets t.ir = packets s.ir := by
  cases i with
  | send a c => obtain ⟨-, rfl⟩ | ⟨-, rfl⟩ := exec_send_next h <;> exact packets_congr rfl rfl rfl
  | _ => rw [exec_ir h hreset htick (by simp) hrecv]

end Sys2Proof.Machine

namespace Sys2Proof.Proofs

open Sys2Proof.Machine

/-- Settles O37: an index of 8 bits bounds the queue, and each operation does to it what its lemma above says. -/
theorem ringIsFirstInFirstOut : Obligations.RingIsFirstInFirstOut := by
  intro i s t _ hexec hfault
  refine ⟨packets_length_le t.ir, ?recv, ?recvEmpty, ?tick, ?reset, packets_of_other hexec⟩
  case recv => rintro rfl; exact packets_recv hexec
  case recvEmpty => rintro rfl; exact packets_recv_empty hexec
  case tick => rintro e rfl; exact packets_tick hexec
  case reset => rintro rfl; exact packets_reset hexec hfault

/-- Settles O30: a full ring drops the word, and any other stores it in the one entry at the producer index. -/
theorem pushStoresOrDrops : Obligations.PushStoresOrDrops := by
  refine fun l w => ⟨push_of_full w, fun hroom => ?_⟩
  rw [push_of_room w hroom]
  refine ⟨rfl, ?_, fun j hj => ?_⟩
  · exact (readRing_writeRing l.ring l.head.isLt w _).trans (if_pos rfl)
  · exact (readRing_writeRing l.ring l.head.isLt w j).trans (if_neg hj)

/-- Settles O36: the two indices tell an empty ring from one with a packet, and the low half of the sentinel is its
address whatever its draw. -/
theorem recvReturnsOldestOrSentinel : Obligations.RecvReturnsOldestOrSentinel := by
  refine fun s hfault => ⟨fun hne => ?oldest, fun hempty => ?sentinel⟩
  case oldest => exact exec_recv hfault (by simpa [ringEmpty] using hne)
  case sentinel =>
    have haddr : (sentinel s).extractLsb' 0 16 = 0xFFFF := BitVec.extractLsb'_append_eq_right
    exact ⟨sentinel s, haddr, exec_recv_empty hfault (by simpa [ringEmpty] using hempty)⟩

end Sys2Proof.Proofs

/-!
PROOFS. The weekly alarm scheduler: the second, the one alarm and its arming, its service, and the table behind it
(`spec/44_alarm_scheduler.md` rules R126 to R147; `spec/70_reset_and_hazards.md` rule R186).
-/

namespace Sys2Proof.Machine

/-! ## The seconds counter (R126, R128) -/

/-- `n` seconds write the Alarm Scheduler record only. -/
theorem runOps_waits (n : Nat) {s : State} (h0 : s.fault = none) :
    ∃ out, runOps (waits n) s = .next { s with alarm := (second s.params)^[n] s.alarm, out := out } := by
  induction n generalizing s with
  | zero => exact ⟨s.out, rfl⟩
  | succ n ih =>
    rw [waits, List.replicate_succ, runOps_cons_next _ (exec_sec h0)]
    exact ih h0

/-- A second that takes the counter above the target finds no match (R128). -/
theorem second_of_late {p : Config.Params} {a : Scheduler} (hlate : a.almTgt ≤ a.rtcCnt)
    (hfits : a.rtcCnt + 1 < 2 ^ p.cntW) : second p a = { a with rtcCnt := a.rtcCnt + 1 } := by
  have hcount : (a.rtcCnt + 1) % 2 ^ p.cntW = a.rtcCnt + 1 := Nat.mod_eq_of_lt hfits
  rw [second_of_other (fun _ => by omega), hcount]

theorem second_iterate_of_late {p : Config.Params} {a : Scheduler} (n : Nat) (hlate : a.almTgt ≤ a.rtcCnt)
    (hfits : a.rtcCnt + n < 2 ^ p.cntW) : (second p)^[n] a = { a with rtcCnt := a.rtcCnt + n } := by
  induction n with
  | zero => rfl
  | succ n ih =>
    rw [Function.iterate_succ_apply', ih (by omega), second_of_late (Nat.le_add_right_of_le hlate) hfits]
    rfl

/-! ## Arming (R127, R131, R136) -/

/-- The test of `ARM` for the current second, as the proposition it decides. -/
theorem matchOnArm_eq_decide (p : Config.Params) (target : Nat) (a : Scheduler) :
    (p.alarmMatchOnArm && a.rtcCnt == target) = decide (p.alarmMatchOnArm = true ∧ a.rtcCnt = target) := by
  rw [Bool.decide_and, Bool.decide_eq_true, beq_eq_decide]

/-- With nothing pending from before, the alarm is either pending at once or armed, never both. -/
theorem arm_of_idle {p : Config.Params} {target : Nat} {a : Scheduler} (hidle : a.almPend = false)
    (hfits : target < 2 ^ p.cntW) :
    arm p target a =
      .ok { a with
        almTgt := target
        almPend := decide (p.alarmMatchOnArm = true ∧ a.rtcCnt = target)
        almEn := decide (¬ (p.alarmMatchOnArm = true ∧ a.rtcCnt = target)) } := by
  rw [arm_of_fits a hfits, hidle, matchOnArm_eq_decide, Bool.false_or, decide_not]

/-! ## The table and the cells (R142, R143, R172) -/

/-- A `RESET` that does not raise leaves in the table what the cells held (R172). -/
theorem readTable_reset {s t : State} (h : exec .reset s = .next t) (hfault : t.fault = none) {i : Nat} (hi : i < 7) :
    readTable t.alarm.table i = BitVec.ofNat 17 ((readCell s.alarm.cell i).toNat * s.params.cellUnitS) := by
  obtain ⟨a, hboot, rfl⟩ | ⟨info, -, rfl⟩ := exec_reset_next h
  · obtain ⟨-, hinit⟩ := boot_next hboot
    obtain ⟨hframe, -⟩ := initAlarm_next hinit
    have htable : a.table = (loadTable s.params (resetScheduler s.alarm)).table := by rw [hframe]
    exact htable ▸ readTable_loadTable s.params (resetScheduler s.alarm) hi
  · cases hfault

/-- Every number of seconds in a day fits an entry of the table (R36). -/
theorem toNat_entry {secs : Nat} (h : secs < 86400) : (BitVec.ofNat 17 secs).toNat = secs := by
  rw [BitVec.toNat_ofNat]
  omega

/-- Every number of minutes in a day fits a cell (R37). -/
theorem toNat_cell {secs : Nat} (h : secs < 86400) : (BitVec.ofNat 16 (secs / 60)).toNat = secs / 60 := by
  rw [BitVec.toNat_ofNat]
  omega

/-- The table after `ASET` (R142). -/
theorem readTable_aset (table : Vector (BitVec 17) Config.days) {day secs : Nat} (hday : day < 7)
    (hsecs : secs < 86400) (j : Nat) :
    (readTable (writeTable table day (BitVec.ofNat 17 secs)) j).toNat =
      if j = day then secs else (readTable table j).toNat := by
  rw [readTable_writeTable table hday, apply_ite BitVec.toNat, toNat_entry hsecs]

/-- The cells after `ASET`, where a cell counts minutes (R142, R143). -/
theorem readCell_aset (cell : Vector (BitVec Config.cellW) Config.days) {day secs : Nat} (hday : day < 7)
    (hsecs : secs < 86400) (j : Nat) :
    (readCell (writeCell cell day (BitVec.ofNat 16 (secs / 60))) j).toNat =
      if j = day then secs / 60 else (readCell cell j).toNat := by
  rw [readCell_writeCell cell hday, apply_ite BitVec.toNat, toNat_cell hsecs]

end Sys2Proof.Machine

namespace Sys2Proof.Proofs

open Sys2Proof.Machine

/-- Settles O40: `AINIT` first clears the pending flag, so the alarm it arms is pending only by its own match. -/
theorem ainitArmsTodayOrMidnight : Obligations.AinitArmsTodayOrMidnight := by
  intro s hfault d v today target now
  have hinit := initAlarm_eq s.params s.alarm
  refine ⟨fun hfits => ?armed, fun hlarge => ?overflow⟩
  case armed => exact ⟨_, exec_ainit_ok hfault (hinit.trans (arm_of_idle rfl hfits)), rfl⟩
  case overflow => exact exec_ainit_error hfault (hinit.trans (arm_of_large _ hlarge))

/-- Settles O42: the service clears the pending flag and arms the midnight after the unchanged day. -/
theorem aservServesSunrise : Obligations.AservServesSunrise := by
  intro s hfault hpend hsun target now
  have hserve := serve_sunrise s.params hpend hsun
  refine ⟨fun hfits => ?armed, fun hlarge => ?overflow⟩
  case armed => exact exec_aserv_ok hfault (by rw [hserve, arm_of_idle rfl hfits]; rfl)
  case overflow => exact exec_aserv_error hfault (by rw [hserve, arm_of_large _ hlarge]; rfl)

/-- Settles O43: the service clears the pending flag, and the entry of the day that begins chooses the target. -/
theorem aservServesRollover : Obligations.AservServesRollover := by
  intro s hfault hpend hsun n v target now
  have hserve := serve_rollover s.params hpend hsun
  refine ⟨fun hfits => ?armed, fun hlarge => ?overflow⟩
  case armed => exact exec_aserv_ok hfault (hserve.trans (congrArg (Except.map _) (arm_of_idle rfl hfits)))
  case overflow => exact exec_aserv_error hfault (hserve.trans (congrArg (Except.map _) (arm_of_large _ hlarge)))

/-- Settles O44: the operands that `ASET` accepts fit the table's and the cells' widths, and one entry of each is
written. -/
theorem asetStoresTableAndCell : Obligations.AsetStoresTableAndCell := by
  refine fun s day secs hfault => ⟨fun hday hsecs => ?stored, exec_aset_range hfault⟩
  refine ⟨_, exec_aset hfault hday hsecs, rfl, fun j _ => readTable_aset _ hday hsecs j, fun hunit j _ => ?_⟩
  rw [hunit]
  exact readCell_aset _ hday hsecs j

/-- Settles O48: the boot reloads the day's entry from its cell, which holds whole minutes only. -/
theorem asetSurvivesRebootInMinutes : Obligations.AsetSurvivesRebootInMinutes := by
  intro s t u day secs hunit hday hsecs haset hreset hfault
  rw [exec_aset (exec_next_fault haset) hday hsecs] at haset
  obtain rfl := Host.Outcome.next.inj haset
  refine ⟨(readTable_aset _ hday hsecs day).trans (if_pos rfl), ?_⟩
  have hcell := (readCell_aset s.alarm.cell hday hsecs day).trans (if_pos rfl)
  rw [readTable_reset hreset hfault hday, hunit, hcell, toNat_entry (by omega)]

/-- Settles O49: each second starts from a target that the counter has reached, and so leaves it behind. -/
theorem lateTargetNeverMatches : Obligations.LateTargetNeverMatches := by
  intro s n hfault hlate hfits
  obtain ⟨out, hrun⟩ := runOps_waits n hfault
  exact ⟨_, hrun, second_iterate_of_late n hlate hfits⟩

/-- Settles O38, by whether the armed alarm matches the new second. -/
theorem secCountsAndMatches : Obligations.SecCountsAndMatches := by
  intro s hfault c
  refine ⟨_, exec_sec hfault, ?_⟩
  by_cases hmatch : s.alarm.almEn = true ∧ c = s.alarm.almTgt
  · obtain ⟨harmed, htarget⟩ := hmatch
    rw [if_pos ⟨harmed, htarget⟩, second_of_match harmed htarget]
  · rw [if_neg hmatch, second_of_other (not_and.mp hmatch)]

/-- Settles O39: what arming gives, by whether the target is the current second and fires at once. -/
theorem armSetsTheOneAlarm : Obligations.ArmSetsTheOneAlarm := by
  refine fun p target a => ⟨arm_of_large a, fun hfits hon hnow => ?fires, fun hfits hlater => ?armed⟩
  case fires =>
    rw [arm_of_fits a hfits, matchOnArm_eq_decide, decide_eq_true ⟨hon, hnow⟩, Bool.or_true, Bool.not_true]
  case armed =>
    have hno : ¬ (p.alarmMatchOnArm = true ∧ a.rtcCnt = target) := by simpa [or_iff_not_imp_left] using hlater
    rw [arm_of_fits a hfits, matchOnArm_eq_decide, decide_eq_false hno, Bool.or_false, Bool.not_false]

/-- Settles O45: the day is tested before the table is read. -/
theorem agetReturnsEntry : Obligations.AgetReturnsEntry :=
  fun _ _ hfault => ⟨exec_aget hfault, exec_aget_range hfault⟩

/-- Settles O46: the one write of `TSET` is the counter. -/
theorem tsetWritesCounterOnly : Obligations.TsetWritesCounterOnly :=
  fun _ _ hfault => ⟨fun hfits => ⟨_, exec_tset hfault hfits, rfl⟩, exec_tset_range hfault⟩

/-- Settles O47: `TGET` only delivers the counter. -/
theorem tgetReturnsCounter : Obligations.TgetReturnsCounter := fun _ hfault => exec_tget hfault

end Sys2Proof.Proofs

/-!
PROOFS. Faults: what recording one leaves of an operation, and that nothing runs after it (`spec/60_exceptions.md` rules
R151, R161).
-/

namespace Sys2Proof.Machine

/-! ## All that an operation does to the fault record (R151, R161) -/

/-- An operation leaves no fault recorded, or it has raised: then the record is its one write. -/
theorem exec_fault_cases {i : Instr} {s t : State} (h : exec i s = .next t) :
    t.fault = none ∨ ∃ info, t = raise s info (encode i) := by
  have h0 := exec_next_fault h
  cases i with
  | reset => exact (exec_reset_next h).imp (fun ⟨_, _, ht⟩ => ht ▸ h0) fun ⟨info, _, ht⟩ => ⟨info, ht⟩
  | ainit => exact (exec_ainit_next h).imp (fun ⟨_, _, ht⟩ => ht ▸ h0) fun ⟨info, _, ht⟩ => ⟨info, ht⟩
  | aserv => exact (exec_aserv_next h).imp (fun ⟨_, _, _, ht⟩ => ht ▸ h0) fun ⟨info, _, ht⟩ => ⟨info, ht⟩
  | aset day secs => exact (exec_aset_next h).imp (fun ⟨_, _, ht⟩ => ht ▸ h0) fun ⟨_, ht⟩ => ⟨_, ht⟩
  | aget day => exact (exec_aget_next h).imp (fun ⟨_, ht⟩ => ht ▸ h0) fun ⟨_, ht⟩ => ⟨_, ht⟩
  | tset v => exact (exec_tset_next h).imp (fun ⟨_, ht⟩ => ht ▸ h0) fun ⟨_, ht⟩ => ⟨_, ht⟩
  | send a c => obtain ⟨-, rfl⟩ | ⟨-, rfl⟩ := exec_send_next h <;> exact .inl h0
  | recv => obtain ⟨-, ht⟩ | ⟨-, ht⟩ := exec_recv_next h <;> exact .inl (ht ▸ h0)
  | tick e => rw [exec_tick h0] at h; cases h; exact .inl h0
  | sec => rw [exec_sec h0] at h; cases h; exact .inl h0
  | lstat => rw [exec_lstat h0] at h; cases h; exact .inl h0
  | classify dt => rw [exec_classify h0] at h; cases h; exact .inl h0
  | tget => rw [exec_tget h0] at h; cases h; exact .inl h0

/-! ## Nothing runs once a fault is recorded (R151) -/

theorem operate_of_fault {s : State} (h : s.fault ≠ none) (i : Instr) (body : State → Except FaultInfo State) :
    operate i s body = .fault .stuck := unlessFaulted_of_some h _

theorem hold_of_fault {s : State} (h : s.fault ≠ none) : hold s = .fault .stuck := unlessFaulted_of_some h _

/-- `SEND` tests the link first, and stops on either side of the test. -/
theorem execSend_of_fault {s : State} (h : s.fault ≠ none) (a : BitVec 16) (c : BitVec 8) :
    execSend a c s = .fault .stuck := by
  rw [execSend]
  split
  · exact hold_of_fault h
  · exact operate_of_fault h _ _

/-- Every meaning is an atomic step of its body, `SEND`'s when it is not held. -/
theorem exec_of_fault {s : State} (h : s.fault ≠ none) (i : Instr) : exec i s = .fault .stuck := by
  cases i with
  | send a c => exact execSend_of_fault h a c
  | _ => rw [exec]; exact operate_of_fault h _ _

theorem step_of_fault {s : State} (h : s.fault ≠ none) : step s = .fault .stuck := unlessFaulted_of_some h _

end Sys2Proof.Machine

namespace Sys2Proof.Proofs

open Sys2Proof.Machine

/-- Settles O8: an operation that leaves a fault recorded has raised it, in the state before; from then on the test that
guards every step and every operation fails. -/
theorem faultIsPreciseAndFinal : Obligations.FaultIsPreciseAndFinal := by
  refine ⟨fun i s t _ hexec hraised => ?precise, fun s hfault => ⟨step_of_fault hfault, exec_of_fault hfault⟩⟩
  case precise =>
    obtain hnone | ⟨info, ht⟩ := exec_fault_cases hexec
    · exact absurd hnone hraised
    · exact ⟨info, ht⟩

end Sys2Proof.Proofs

/-!
PROOFS. `RESET` and the boot inside it: the load of the table from the cells, the arming that follows, and the first cell
that stops it (`spec/70_reset_and_hazards.md` rules R171, R172).
-/

namespace Sys2Proof.Machine

/-! ## The boot, by what the cells hold (R172) -/

/-- With every cell legal, the boot is the load of the table and `AINIT`. -/
theorem boot_of_legal (p : Config.Params) {a : Scheduler} (hcells : ∀ i < 7, (readCell a.cell i).toNat ≤ 1439) :
    boot p a = initAlarm p (loadTable p a) := by
  rw [boot, badCell_none hcells]

/-- The first cell above 1439 raises, with its day and its value. -/
theorem boot_of_bad (p : Config.Params) {a : Scheduler} {day : Nat} (hday : day < 7)
    (hbad : 1439 < (readCell a.cell day).toNat) (hfirst : ∀ j < day, (readCell a.cell j).toNat ≤ 1439) :
    boot p a = .error (.cellRange day (readCell a.cell day).toNat) := by
  rw [boot, badCell_first hday hbad hfirst]

/-- Where a cell counts minutes, a legal cell becomes the seconds of its minutes, uncut by the entry's width. -/
theorem toNat_readTable_loadTable {p : Config.Params} {a : Scheduler} {i : Nat} (hunit : p.cellUnitS = 60) (hi : i < 7)
    (hcell : (readCell a.cell i).toNat ≤ 1439) :
    (readTable (loadTable p a).table i).toNat = (readCell a.cell i).toNat * 60 := by
  rw [readTable_loadTable p a hi, hunit, toNat_entry (by omega)]

end Sys2Proof.Machine

namespace Sys2Proof.Proofs

open Sys2Proof.Machine

/-- Settles O52: with legal cells the boot is `AINIT` on the loaded table, which arms with nothing pending, and the cells
give that table's entry of the day; where the boot raises, the fault record is the one write. -/
theorem resetBootsTheBlock : Obligations.ResetBootsTheBlock := by
  intro s hfault hunit d v today target now
  have hentry (hcells : ∀ i < 7, (readCell s.alarm.cell i).toNat ≤ 1439) (i : Nat) (hi : i < 7) :
      (readTable (loadTable s.params (resetScheduler s.alarm)).table i).toNat = (readCell s.alarm.cell i).toNat * 60 :=
    toNat_readTable_loadTable hunit hi (hcells i hi)
  have hboot (hcells : ∀ i < 7, (readCell s.alarm.cell i).toNat ≤ 1439) :=
    (boot_of_legal s.params (a := resetScheduler s.alarm) hcells).trans
      (initAlarm_of s.params (d := d) (v := v) rfl (hentry hcells (d % 7) (Nat.mod_lt d (by decide))))
  refine ⟨fun hcells hfits => ?booted, fun hcells hlarge => ?overflow, fun day hday hbad hfirst => ?badCell⟩
  case booted => exact ⟨_, exec_reset_ok hfault ((hboot hcells).trans (arm_of_idle rfl hfits)), rfl, hentry hcells⟩
  case overflow => exact exec_reset_error hfault ((hboot hcells).trans (arm_of_large _ hlarge))
  case badCell => exact exec_reset_error hfault (boot_of_bad s.params hday hbad hfirst)

end Sys2Proof.Proofs

/-!
PROOFS. The decoder against the encoder and the opcode table, and the step that issues a descriptor
(`spec/30_encoding.md` rules R61, R74 to R77; `spec/00_scope.md` rules R11 to R13).
-/

namespace Sys2Proof.Machine

/-! ## Every operation answers (R13, R154) -/

theorem operate_answers {s : State} (h : s.fault = none) (i : Instr) (body : State → Except FaultInfo State) :
    ∃ t, operate i s body = .next t := by
  cases hbody : body (deliver s none .none) with
  | ok t => exact ⟨t, operate_ok h hbody⟩
  | error info => exact ⟨_, operate_error h hbody⟩

/-- Raising and being held are answers too. -/
theorem exec_answers {s : State} (h : s.fault = none) (i : Instr) : ∃ t, exec i s = .next t := by
  cases i with
  | send a c =>
    by_cases hlink : s.ir.link = .clearToSend
    · exact ⟨_, exec_send h hlink a c⟩
    · exact ⟨s, exec_send_held h hlink a c⟩
  | _ => rw [exec]; exact operate_answers h _ _

/-! ## The turns of the schedule (R13, R160) -/

theorem mem_queue_of_nextTurn {s : State} {a : Agent} {d : Descriptor} (h : nextTurn s = .issue a d) :
    d ∈ queue s.inputs a := by
  unfold nextTurn at h
  split at h
  next => cases h
  next b _ _ =>
    split at h
    next => cases h
    next hqueue =>
      cases h
      rw [hqueue]
      exact List.mem_cons_self

theorem step_of_idle {s : State} (h : s.fault = none) (hturn : nextTurn s = .idle) : step s = .next (afterIdle s) := by
  simp only [step, unlessFaulted_of_none h, hturn]

theorem step_of_foreign {s : State} {a : Agent} {d : Descriptor} {i : Instr} (h : s.fault = none)
    (hturn : nextTurn s = .issue a d) (hd : decode d = .ok i) (ha : agentOf i ≠ a) :
    step s = .refused .foreignAgent := by
  simp only [step, unlessFaulted_of_none h, hturn, hd, if_neg ha]

theorem step_next_fault {s t : State} (h : step s = .next t) : s.fault = none := by
  by_contra hfault
  rw [step_of_fault hfault] at h
  cases h

/-- All that a step can do: an idle turn, an illegal descriptor, or the operation of the agent's descriptor. -/
theorem step_next {s t : State} (h : step s = .next t) :
    t = afterIdle s ∨ (∃ a d, t = raise (afterTurn s a false) (.illegal d) d) ∨
      ∃ a i, exec i (afterTurn s a (held i s)) = .next t := by
  have hfault := step_next_fault h
  cases hturn : nextTurn s with
  | idle =>
    rw [step_of_idle hfault hturn] at h
    exact .inl (Host.Outcome.next.inj h).symm
  | issue a d =>
    cases hd : decode d with
    | error e =>
      rw [step_of_decode_error hfault hturn hd] at h
      exact .inr (.inl ⟨a, d, (Host.Outcome.next.inj h).symm⟩)
    | ok i =>
      by_cases ha : agentOf i = a
      · rw [step_of_decode_ok hfault hturn hd ha] at h
        exact .inr (.inr ⟨a, i, h⟩)
      · rw [step_of_foreign hfault hturn hd ha] at h
        cases h

end Sys2Proof.Machine

namespace Sys2Proof.Proofs

open Sys2Proof.Machine Sys2Proof.Laws

/-- Settles O1: the encoder puts each operand into the field from which the decoder reads it. -/
theorem decodeOfEncode : Obligations.DecodeOfEncode :=
  fun i hwf => (decode_eq_ok_iff (encode i) i).mpr ⟨hwf, rfl⟩

/-- Settles O2: each arm of the decoder tests every operand bit that its operation does not use. -/
theorem encodeOfDecode : Obligations.EncodeOfDecode := fun d i => (decode_eq_ok_iff d i).mp

/-- Settles O3: the rows of the table are those of the 13 operations, and a row holds of a word exactly where the decoder
accepts it as that operation. -/
theorem decodeFollowsOpcodeTable : Obligations.DecodeFollowsOpcodeTable := by
  refine fun d => ⟨fun r hr hholds => ?row, fun hno => ?noRow⟩
  case row =>
    obtain ⟨i, rfl⟩ := (mem_opcodeTable_iff r).mp hr
    exact decode_of_holds_rowOf hholds
  case noRow =>
    cases hd : decode d with
    | error e => exact ⟨e, rfl⟩
    | ok i =>
      obtain ⟨r, hr, hholds⟩ := (exists_row_holds_iff d).mpr ⟨i, hd⟩
      exact absurd hholds (hno r hr)

/-- Settles O4: each word is the encoding of its operation, whose operands fit their fields. -/
theorem exampleWordsDecode : Obligations.ExampleWordsDecode := by
  simp only [Obligations.ExampleWordsDecode, decode_eq_ok_iff]
  decide

/-- Settles O5: what decodes is well-formed, and the step's test of the fault, the turn and the agent all pass. -/
theorem stepRunsDecoded : Obligations.StepRunsDecoded := by
  intro s a d i hfault hturn hd ha
  obtain ⟨hwf, -⟩ := (decode_eq_ok_iff d i).mp hd
  exact ⟨hwf, step_of_decode_ok hfault hturn hd ha⟩

/-- Settles O10: an operation always answers, and the agents' ownership of what they issue shuts out the refusal. -/
theorem stepAlwaysAnswers : Obligations.StepAlwaysAnswers := by
  intro s hfault howned
  cases hturn : nextTurn s with
  | idle => exact ⟨_, step_of_idle hfault hturn⟩
  | issue a d =>
    cases hd : decode d with
    | error e => exact ⟨_, step_of_decode_error hfault hturn hd⟩
    | ok i =>
      have ha : agentOf i = a := howned a d (mem_queue_of_nextTurn hturn) i hd
      rw [step_of_decode_ok hfault hturn hd ha]
      exact exec_answers (s := afterTurn s a (held i s)) hfault i

/-- Settles O16: the three parts of the word are appended in this order, and a complement flips all 8 bits. -/
theorem frameWordFields : Obligations.FrameWordFields := by
  intro address command
  have above16 {start : Nat} (h : 16 ≤ start) :
      (frameWord address command).extractLsb' start 8 = (~~~command ++ command).extractLsb' (start - 16) 8 :=
    BitVec.extractLsb'_append_eq_of_le h
  refine ⟨BitVec.extractLsb'_append_eq_right, ?command, ?complement⟩
  case command => exact (above16 (by decide)).trans BitVec.extractLsb'_append_eq_right
  case complement =>
    have flipped : ~~~command = command ^^^ 0xFF := BitVec.xor_allOnes.symm
    exact (above16 (by decide)).trans (BitVec.extractLsb'_append_eq_left.trans flipped)

end Sys2Proof.Proofs

/-!
PROOFS. The two halves of the block: what an operation makes of each record, from that record and the parameters alone
(`spec/00_scope.md` rule R12; `spec/10_state.md` rules R31 to R37, R45; `spec/60_exceptions.md` rules R151, R152).
-/

namespace Sys2Proof.Machine

/-! ## The records after an operation -/

/-- The IR Link record after the operation, unless it raises; `draw` is the draw that fills the ring of a `RESET`. -/
def linkAfter (draw : Nat) (p : Config.Params) (l : IrLink) : Instr → IrLink
  | .reset => resetLink draw
  | .tick e => tick p e l
  | .send address command =>
    if l.link = .clearToSend then startTransmission p (frameWord address command) l else l
  | .recv => if l.head = l.tail then l else { l with tail := l.tail + 1 }
  | .sec | .lstat | .classify _ | .ainit | .aserv | .aset _ _ | .aget _ | .tset _ | .tget => l

/-- The Alarm Scheduler record after the operation, or the fault that it raises. -/
def schedulerAfter (p : Config.Params) (a : Scheduler) : Instr → Except FaultInfo Scheduler
  | .reset => boot p (resetScheduler a)
  | .sec => .ok (second p a)
  | .ainit => initAlarm p a
  | .aserv => (serve p a).map Prod.snd
  | .aset day secs =>
    if 7 ≤ day ∨ 86400 ≤ secs then .error (.range [day, secs])
    else
      .ok { a with
        table := writeTable a.table day (BitVec.ofNat 17 secs)
        cell := writeCell a.cell day (BitVec.ofNat 16 (secs / p.cellUnitS)) }
  | .aget day => if 7 ≤ day then .error (.range [day]) else .ok a
  | .tset v => if 2 ^ p.cntW ≤ v then .error (.range [v]) else .ok { a with rtcCnt := v }
  | .tick _ | .send _ _ | .recv | .lstat | .classify _ | .tget => .ok a

/-- All that an operation can do: it writes the two records, the draws and the outputs, or it raises. -/
theorem exec_cases {i : Instr} {s t : State} (h : exec i s = .next t) :
    (∃ a draws out, schedulerAfter s.params s.alarm i = .ok a ∧
        t = { s with ir := linkAfter s.draws s.params s.ir i, alarm := a, draws := draws, out := out }) ∨
      ∃ info, schedulerAfter s.params s.alarm i = .error info ∧ t = raise s info (encode i) := by
  have hfault := exec_next_fault h
  cases i with
  | reset =>
    obtain ⟨a, hboot, rfl⟩ | ⟨info, hboot, rfl⟩ := exec_reset_next h
    · exact .inl ⟨a, _, _, hboot, rfl⟩
    · exact .inr ⟨info, hboot, rfl⟩
  | ainit =>
    obtain ⟨a, hinit, rfl⟩ | ⟨info, hinit, rfl⟩ := exec_ainit_next h
    · exact .inl ⟨a, _, _, hinit, rfl⟩
    · exact .inr ⟨info, hinit, rfl⟩
  | aserv =>
    obtain ⟨e, a, hserve, rfl⟩ | ⟨info, hserve, rfl⟩ := exec_aserv_next h
    · exact .inl ⟨a, _, _, congrArg (Except.map Prod.snd) hserve, rfl⟩
    · exact .inr ⟨info, congrArg (Except.map Prod.snd) hserve, rfl⟩
  | aset day secs =>
    obtain ⟨hday, hsecs, rfl⟩ | ⟨hrange, rfl⟩ := exec_aset_next h
    · exact .inl ⟨_, _, _, if_neg (by omega), rfl⟩
    · exact .inr ⟨_, if_pos hrange, rfl⟩
  | aget day =>
    obtain ⟨hday, rfl⟩ | ⟨hrange, rfl⟩ := exec_aget_next h
    · exact .inl ⟨_, _, _, if_neg (Nat.not_le.mpr hday), rfl⟩
    · exact .inr ⟨_, if_pos hrange, rfl⟩
  | tset v =>
    obtain ⟨hfits, rfl⟩ | ⟨hrange, rfl⟩ := exec_tset_next h
    · exact .inl ⟨_, _, _, if_neg (Nat.not_le.mpr hfits), rfl⟩
    · exact .inr ⟨_, if_pos hrange, rfl⟩
  | send a c =>
    refine .inl ⟨_, t.draws, t.out, rfl, ?_⟩
    obtain ⟨hlink, rfl⟩ | ⟨hlink, rfl⟩ := exec_send_next h <;> simp [linkAfter, hlink]
  | recv =>
    refine .inl ⟨_, t.draws, t.out, rfl, ?_⟩
    obtain ⟨hempty, ht⟩ | ⟨hne, rfl⟩ := exec_recv_next h
    · simpa [linkAfter, hempty] using ht
    · simp [linkAfter, hne]
  | tick e => rw [exec_tick hfault] at h; cases h; exact .inl ⟨_, _, _, rfl, rfl⟩
  | sec => rw [exec_sec hfault] at h; cases h; exact .inl ⟨_, _, _, rfl, rfl⟩
  | lstat => rw [exec_lstat hfault] at h; cases h; exact .inl ⟨_, _, _, rfl, rfl⟩
  | classify dt => rw [exec_classify hfault] at h; cases h; exact .inl ⟨_, _, _, rfl, rfl⟩
  | tget => rw [exec_tget hfault] at h; cases h; exact .inl ⟨_, _, _, rfl, rfl⟩

theorem exec_params {i : Instr} {s t : State} (h : exec i s = .next t) : t.params = s.params := by
  obtain ⟨a, draws, out, -, rfl⟩ | ⟨info, -, rfl⟩ := exec_cases h <;> rfl

theorem exec_inputs {i : Instr} {s t : State} (h : exec i s = .next t) : t.inputs = s.inputs := by
  obtain ⟨a, draws, out, -, rfl⟩ | ⟨info, -, rfl⟩ := exec_cases h <;> rfl

/-- The scheduler's half of an operation: the record it gives, or the fault it raises with the record as it was. -/
theorem exec_alarm_cases {i : Instr} {s t : State} (h : exec i s = .next t) :
    (schedulerAfter s.params s.alarm i = .ok t.alarm ∧ t.fault = none) ∨
      ∃ info, schedulerAfter s.params s.alarm i = .error info ∧ t.alarm = s.alarm ∧
        t.fault = some ⟨info, encode i⟩ := by
  have hfault := exec_next_fault h
  obtain ⟨a, draws, out, ha, rfl⟩ | ⟨info, hinfo, rfl⟩ := exec_cases h
  · exact .inl ⟨ha, hfault⟩
  · exact .inr ⟨info, hinfo, rfl, rfl⟩

/-- The IR half of an operation: only `RESET` can raise and would else write the record. -/
theorem exec_ir_cases {i : Instr} {s t : State} (h : exec i s = .next t) :
    t.ir = linkAfter s.draws s.params s.ir i ∨ (i = .reset ∧ t.ir = s.ir) := by
  obtain ⟨a, draws, out, -, rfl⟩ | ⟨info, hinfo, rfl⟩ := exec_cases h
  · exact .inl rfl
  · cases i with
    | reset => exact .inr ⟨rfl, rfl⟩
    | ainit | aserv | aset _ _ | aget _ | tset _ => exact .inl rfl
    | sec | tick _ | send _ _ | recv | lstat | classify _ | tget => cases hinfo

theorem exec_ir_eq {i : Instr} {s t : State} (h : exec i s = .next t) (hi : i ≠ .reset) :
    t.ir = linkAfter s.draws s.params s.ir i :=
  (exec_ir_cases h).resolve_right fun hreset => hi hreset.1

theorem linkAfter_draw {i : Instr} (hi : i ≠ .reset) (m n : Nat) (p : Config.Params) (l : IrLink) :
    linkAfter m p l i = linkAfter n p l i := by
  cases i with
  | reset => exact absurd rfl hi
  | _ => rfl

/-! ## The operations of each half (R12) -/

/-- The operations of the IR half, `RESET` apart. -/
def IrOperation (i : Instr) : Prop :=
  agentOf i = .irenv ∨ i = .recv ∨ i = .lstat ∨ (∃ a c, i = .send a c) ∨ ∃ dt, i = .classify dt

/-- The operations of the scheduler half, `RESET` apart. -/
def SchedulerOperation (i : Instr) : Prop :=
  agentOf i = .rtc ∨ i = .ainit ∨ i = .aserv ∨ i = .tget ∨ (∃ d v, i = .aset d v) ∨ (∃ d, i = .aget d) ∨
    ∃ v, i = .tset v

theorem schedulerAfter_of_ir {i : Instr} (hi : IrOperation i) (p : Config.Params) (a : Scheduler) :
    schedulerAfter p a i = .ok a := by
  cases i with
  | tick _ | send _ _ | recv | lstat | classify _ => rfl
  | _ => simp [IrOperation, agentOf] at hi

theorem linkAfter_of_scheduler {i : Instr} (hi : SchedulerOperation i) (draw : Nat) (p : Config.Params) (l : IrLink) :
    linkAfter draw p l i = l := by
  cases i with
  | sec | ainit | aserv | aset _ _ | aget _ | tset _ | tget => rfl
  | _ => simp [SchedulerOperation, agentOf] at hi

/-- An operation of the IR half leaves the scheduler alone and records no fault. -/
theorem exec_of_irOperation {i : Instr} {s t : State} (h : exec i s = .next t) (hi : IrOperation i) :
    t.alarm = s.alarm ∧ t.fault = none := by
  have hok := schedulerAfter_of_ir hi s.params s.alarm
  obtain ⟨halarm, hfault⟩ | ⟨info, hinfo, -⟩ := exec_alarm_cases h
  · exact ⟨Except.ok.inj (halarm.symm.trans hok), hfault⟩
  · rw [hok] at hinfo
    cases hinfo

/-- The scheduler's half of the next state depends on the parameters and that half alone. -/
theorem exec_alarm_congr {i : Instr} {s s' t t' : State} (h : exec i s = .next t) (h' : exec i s' = .next t')
    (hparams : s.params = s'.params) (halarm : s.alarm = s'.alarm) : t.alarm = t'.alarm ∧ t.fault = t'.fault := by
  have hcases := exec_alarm_cases h
  rw [hparams, halarm] at hcases
  obtain ⟨hok', hnone'⟩ | ⟨info', herr', hsame', hsome'⟩ := exec_alarm_cases h' <;>
    obtain ⟨hok, hnone⟩ | ⟨info, herr, hsame, hsome⟩ := hcases
  · exact ⟨Except.ok.inj (hok.symm.trans hok'), hnone.trans hnone'.symm⟩
  · cases herr.symm.trans hok'
  · cases hok.symm.trans herr'
  · obtain rfl := Except.error.inj (herr.symm.trans herr')
    exact ⟨hsame.trans hsame'.symm, hsome.trans hsome'.symm⟩

/-! ## Who writes the retained fields (R31, R36, R37) -/

/-- All that a second can do: it counts, and a match posts the pending flag and disarms (R126). -/
theorem second_cases (p : Config.Params) (a : Scheduler) :
    second p a = { a with rtcCnt := (a.rtcCnt + 1) % 2 ^ p.cntW } ∨
      second p a = { a with rtcCnt := (a.rtcCnt + 1) % 2 ^ p.cntW, almPend := true, almEn := false } := by
  by_cases hmatch : a.almEn = true ∧ (a.rtcCnt + 1) % 2 ^ p.cntW = a.almTgt
  · exact .inr (second_of_match hmatch.1 hmatch.2)
  · exact .inl (second_of_other (not_and.mp hmatch))

theorem exists_event_of_schedulerAfter_aserv {p : Config.Params} {a b : Scheduler}
    (h : schedulerAfter p a .aserv = .ok b) : ∃ e, serve p a = .ok (e, b) := by
  cases hserve : serve p a with
  | ok r => exact ⟨r.1, by rw [schedulerAfter, hserve] at h; cases h; rfl⟩
  | error info => rw [schedulerAfter, hserve] at h; cases h

/-- The counter, the cells and the table of `b` are those of `a`, but for the operations that write them. -/
theorem schedulerAfter_retains {p : Config.Params} {a b : Scheduler} {i : Instr} (h : schedulerAfter p a i = .ok b) :
    (i ≠ .sec → (∀ v, i ≠ .tset v) → b.rtcCnt = a.rtcCnt) ∧
      ((∀ d v, i ≠ .aset d v) → b.cell = a.cell) ∧
      ((∀ d v, i ≠ .aset d v) → i ≠ .reset → b.table = a.table) := by
  cases i with
  | tick _ | send _ _ | recv | lstat | classify _ | tget =>
    cases h
    exact ⟨fun _ _ => rfl, fun _ => rfl, fun _ _ => rfl⟩
  | aget day =>
    rw [schedulerAfter] at h
    split at h <;> cases h
    exact ⟨fun _ _ => rfl, fun _ => rfl, fun _ _ => rfl⟩
  | ainit =>
    obtain ⟨hframe, -⟩ := initAlarm_next h
    rw [hframe]
    exact ⟨fun _ _ => rfl, fun _ => rfl, fun _ _ => rfl⟩
  | aserv =>
    obtain ⟨e, hserve⟩ := exists_event_of_schedulerAfter_aserv h
    obtain ⟨-, rfl, -⟩ | ⟨-, hframe, -⟩ := serve_next hserve
    · exact ⟨fun _ _ => rfl, fun _ => rfl, fun _ _ => rfl⟩
    · rw [hframe]
      exact ⟨fun _ _ => rfl, fun _ => rfl, fun _ _ => rfl⟩
  | reset =>
    obtain ⟨-, hinit⟩ := boot_next h
    obtain ⟨hframe, -⟩ := initAlarm_next hinit
    rw [hframe]
    exact ⟨fun _ _ => rfl, fun _ => rfl, fun _ hreset => absurd rfl hreset⟩
  | sec =>
    obtain rfl := Except.ok.inj h
    rcases second_cases p a with hsecond | hsecond <;> rw [hsecond] <;>
      exact ⟨fun hsec => absurd rfl hsec, fun _ => rfl, fun _ _ => rfl⟩
  | aset day secs =>
    rw [schedulerAfter] at h
    split at h <;> cases h
    exact ⟨fun _ _ => rfl, fun haset => absurd rfl (haset day secs), fun haset => absurd rfl (haset day secs)⟩
  | tset v =>
    rw [schedulerAfter] at h
    split at h <;> cases h
    exact ⟨fun _ htset => absurd rfl (htset v), fun _ => rfl, fun _ _ => rfl⟩

/-! ## Why an operation raises (R152) -/

theorem schedulerAfter_raises {p : Config.Params} {a : Scheduler} {i : Instr} {info : FaultInfo}
    (h : schedulerAfter p a i = .error info) :
    (∃ day secs, i = .aset day secs ∧ (7 ≤ day ∨ 86400 ≤ secs) ∧ info = .range [day, secs]) ∨
      (∃ day, i = .aget day ∧ 7 ≤ day ∧ info = .range [day]) ∨
      (∃ v, i = .tset v ∧ 2 ^ p.cntW ≤ v ∧ info = .range [v]) ∨
      ((i = .ainit ∨ i = .aserv ∨ i = .reset) ∧ ∃ target, 2 ^ p.cntW ≤ target ∧ info = .armOvf target) ∨
      (i = .reset ∧ ∃ day < 7, 1439 < (readCell a.cell day).toNat ∧
        info = .cellRange day (readCell a.cell day).toNat) := by
  cases i with
  | sec | tick _ | send _ _ | recv | lstat | classify _ | tget => cases h
  | aset day secs =>
    rw [schedulerAfter] at h
    split at h <;> cases h
    next hrange => exact .inl ⟨day, secs, rfl, hrange, rfl⟩
  | aget day =>
    rw [schedulerAfter] at h
    split at h <;> cases h
    next hrange => exact .inr (.inl ⟨day, rfl, hrange, rfl⟩)
  | tset v =>
    rw [schedulerAfter] at h
    split at h <;> cases h
    next hrange => exact .inr (.inr (.inl ⟨v, rfl, hrange, rfl⟩))
  | ainit => exact .inr (.inr (.inr (.inl ⟨.inl rfl, initAlarm_raises h⟩)))
  | aserv =>
    cases hserve : serve p a with
    | ok r => rw [schedulerAfter, hserve] at h; cases h
    | error info' =>
      rw [schedulerAfter, hserve] at h
      obtain rfl := Except.error.inj h
      exact .inr (.inr (.inr (.inl ⟨.inr (.inl rfl), serve_raises hserve⟩)))
  | reset =>
    obtain hcell | hinit := boot_raises h
    · exact .inr (.inr (.inr (.inr ⟨rfl, hcell⟩)))
    · exact .inr (.inr (.inr (.inl ⟨.inr (.inr rfl), initAlarm_raises hinit⟩)))

end Sys2Proof.Machine

namespace Sys2Proof.Proofs

open Sys2Proof.Machine

/-- Settles O54: each half of the next state is a function of the parameters and that half of the state before. -/
theorem halvesShareNoState : Obligations.HalvesShareNoState := by
  intro i s s' t t' _ _ hparams hexec hexec' hreset
  refine ⟨fun hi => ?irHalf, fun hi => ?schedulerHalf⟩
  case irHalf =>
    obtain ⟨halarm, hfault⟩ := exec_of_irOperation hexec hi
    refine ⟨halarm, hfault, fun hir => ?_⟩
    rw [exec_ir_eq hexec hreset, exec_ir_eq hexec' hreset, hparams, hir]
    exact linkAfter_draw hreset ..
  case schedulerHalf =>
    exact ⟨(exec_ir_eq hexec hreset).trans (linkAfter_of_scheduler hi ..), exec_alarm_congr hexec hexec' hparams⟩

/-- Settles O53: by the operations that write the record, a raise leaving all of it. -/
theorem retainedStateWriters : Obligations.RetainedStateWriters := by
  intro i s t hexec
  have hmodel : t.params = s.params ∧ t.inputs = s.inputs := ⟨exec_params hexec, exec_inputs hexec⟩
  obtain ⟨hok, -⟩ | ⟨info, -, hsame, -⟩ := exec_alarm_cases hexec
  · obtain ⟨hcount, hcell, htable⟩ := schedulerAfter_retains hok
    exact ⟨hcount, hcell, htable, hmodel⟩
  · rw [hsame]
    exact ⟨fun _ _ => rfl, fun _ => rfl, fun _ _ => rfl, hmodel⟩

/-- Settles O9: a recorded fault is one that the scheduler's half raised, each with the code that R152 gives. -/
theorem faultCauses : Obligations.FaultCauses := by
  intro i s t r _ hexec hr
  obtain ⟨-, hnone⟩ | ⟨info, hraises, -, hsome⟩ := exec_alarm_cases hexec
  · rw [hnone] at hr
    cases hr
  · obtain rfl := Option.some.inj (hsome.symm.trans hr)
    obtain ⟨day, secs, hi, hrange, rfl⟩ | ⟨day, hi, hrange, rfl⟩ | ⟨v, hi, hrange, rfl⟩ | ⟨hi, target, hlarge, rfl⟩ |
      ⟨hi, day, hday, hbad, rfl⟩ := schedulerAfter_raises hraises
    · exact .inl ⟨day, secs, hi, hrange, rfl, rfl⟩
    · exact .inr (.inl ⟨day, hi, hrange, rfl, rfl⟩)
    · exact .inr (.inr (.inl ⟨v, hi, hrange, rfl, rfl⟩))
    · exact .inr (.inr (.inr (.inl ⟨hi, target, hlarge, rfl, rfl⟩)))
    · exact .inr (.inr (.inr (.inr ⟨hi, day, hday, hbad, rfl, rfl⟩)))

end Sys2Proof.Proofs

/-!
PROOFS. The invariant of the block: the two modes of the IR link, its counters, the scheduler's record, and the state after
`RESET` (`spec/10_state.md` rule R40; `spec/70_reset_and_hazards.md` rules R171, R172).
-/

namespace Sys2Proof.Machine

/-! ## The invariant of the IR link, mode by mode (R40) -/

/-- The fields that reception needs, whatever the timer and the link state (R22 to R24, R30). -/
structure ReceptionOn (l : IrLink) : Prop where
  edgeEn : l.edgeEn = true
  tmrPer : l.tmrPer = 45000
  carrierOn : l.carrierOn = false
  planIdx : l.planIdx = 0
  edgeLatched : l.edgeLatched = false

/-- The link outside `Transmitting`: reception is on and the quiet-channel timeout runs. -/
structure Listening (l : IrLink) : Prop extends ReceptionOn l where
  link : l.link ≠ .transmitting
  tmrCnt : l.tmrCnt.toNat < 45000

/-- Every interval of the plan has a length within the quiet-channel timeout (R67). -/
def PlanPlayable (plan : Vector (BitVec 16) Config.planLen) : Prop :=
  ∀ i < 67, 0 < (intervalUs (readPlan plan i)).toNat ∧ (intervalUs (readPlan plan i)).toNat ≤ 45000

/-- The link in `Transmitting`: it plays an interval of its plan. -/
structure Sending (p : Config.Params) (l : IrLink) : Prop
    extends Playing l.plan l.planIdx.toNat l.tmrCnt.toNat l where
  inPlan : l.planIdx.toNat < 67
  inInterval : l.tmrCnt.toNat < l.tmrPer.toNat
  playable : PlanPlayable l.plan
  edgeLatched : p.edgeLatchTx = false → l.edgeLatched = false

/-- The accumulator and the measurement counter, which both modes keep in their ranges (R25, R28). -/
structure CountersInRange (p : Config.Params) (l : IrLink) : Prop where
  accN : l.accN.toNat < 32
  accBits : l.accBits.toNat < 2 ^ l.accN.toNat
  measCnt : ∀ m ∈ p.measWrap, 0 < m → l.measCnt < m

theorem linkInv_iff (p : Config.Params) (l : IrLink) :
    LinkInv p l ↔ (Listening l ∨ Sending p l) ∧ CountersInRange p l := by
  constructor
  · rintro ⟨hmask, hrecv, hplay, hcnt, -, haccN, haccBits, -, -, -, hlatch, hmeas⟩
    refine ⟨?_, haccN, haccBits, hmeas⟩
    by_cases hlink : l.link = .transmitting
    · obtain ⟨hidx, hper, hcarrier, hplan⟩ := hplay hlink
      have hen : l.edgeEn = false := by simpa [hlink] using hmask
      exact .inr ⟨⟨hlink, hen, rfl, rfl, hper, hcarrier, rfl⟩, hidx, hcnt, hplan, hlatch⟩
    · obtain ⟨hper, hcarrier, hidx, hlatched⟩ := hrecv hlink
      exact .inl ⟨⟨hmask.mpr hlink, BitVec.eq_of_toNat_eq hper, hcarrier, hidx, hlatched⟩, hlink, hcnt.trans_eq hper⟩
  · rintro ⟨hmode, haccN, haccBits, hmeas⟩
    have hring : ringCount l < Config.ringCap := Nat.mod_lt _ (by decide)
    rcases hmode with h | h
    · have hper : l.tmrPer.toNat = 45000 := by rw [h.tmrPer]; rfl
      exact ⟨iff_of_true h.edgeEn h.link, fun _ => ⟨hper, h.carrierOn, h.planIdx, h.edgeLatched⟩,
        fun hlink => absurd hlink h.link, hper ▸ h.tmrCnt, hper.le, haccN, haccBits, l.head.isLt, l.tail.isLt, hring,
        fun _ => h.edgeLatched, hmeas⟩
    · have hle : l.tmrPer.toNat ≤ 45000 := h.tmrPer ▸ (h.playable _ h.inPlan).2
      exact ⟨by simp [h.edgeEn, h.link], fun hlink => absurd h.link hlink,
        fun _ => ⟨h.inPlan, h.tmrPer, h.carrierOn, h.playable⟩, h.inInterval, hle, haccN, haccBits, l.head.isLt,
        l.tail.isLt, hring, h.edgeLatched, hmeas⟩

/-! ## The counters (R25, R28, R110) -/

section Counters

variable {p : Config.Params} {l m : IrLink}

theorem CountersInRange.congr (h : CountersInRange p l) (hn : m.accN = l.accN) (hbits : m.accBits = l.accBits)
    (hmeas : m.measCnt = l.measCnt) : CountersInRange p m :=
  ⟨hn ▸ h.accN, hn ▸ hbits ▸ h.accBits, hmeas ▸ h.measCnt⟩

theorem CountersInRange.clear (h : CountersInRange p l) : CountersInRange p (clearAccumulator l) :=
  ⟨by simp, by simp, h.measCnt⟩

/-- A bit stored above the bits collected so far keeps the rest of the word 0. -/
theorem toNat_setBit_lt {bits : BitVec 32} {n : BitVec 6} (b : Bool) (hn : n.toNat < 32)
    (hbits : bits.toNat < 2 ^ n.toNat) : (setBit bits n b).toNat < 2 ^ (n.toNat + 1) := by
  refine Nat.lt_pow_two_of_testBit _ fun j hj => ?_
  rw [BitVec.testBit_toNat, setBit_getLsbD bits n b j hn, if_neg (by omega)]
  exact Nat.testBit_lt_two_pow (hbits.trans_le (Nat.pow_le_pow_right (by decide) (by omega)))

theorem CountersInRange.accumulate (h : CountersInRange p l) (b : Bool) : CountersInRange p (accumulate l b) := by
  by_cases hlast : l.accN.toNat = 31
  · rw [accumulate_of_last b hlast]
    exact ⟨by simp, by simp, by simpa using h.measCnt⟩
  · have hlt : l.accN.toNat < 31 := by have := h.accN; omega
    have hnext : (l.accN + 1).toNat = l.accN.toNat + 1 := toNat_succ_of_lt (show l.accN.toNat < 63 by omega)
    rw [accumulate_of_lt b hlt]
    refine ⟨?_, ?_, h.measCnt⟩
    · show (l.accN + 1).toNat < 32
      omega
    · show (setBit l.accBits l.accN b).toNat < 2 ^ (l.accN + 1).toNat
      rw [hnext]
      exact toNat_setBit_lt b h.accN h.accBits

theorem CountersInRange.receiveSymbol (h : CountersInRange p l) (y : Symbol) :
    CountersInRange p (receiveSymbol l y) := by
  cases y with
  | zero => exact h.accumulate false
  | one => exact h.accumulate true
  | start | repeatMark | noise => exact h.clear

/-- An edge starts a new measurement, so that the old one does not matter. -/
theorem CountersInRange.edge (h : CountersInRange p l) : CountersInRange p (edge p l) := by
  have hrestarted : CountersInRange p { l with measCnt := 0, tmrCnt := 0, link := .receiving } :=
    ⟨h.accN, h.accBits, fun _ _ hpos => hpos⟩
  exact hrestarted.receiveSymbol _

theorem CountersInRange.edges (e : Nat) (h : CountersInRange p l) : CountersInRange p (edges p e l) := by
  induction e generalizing l with
  | zero => exact h
  | succ e ih =>
    rw [Machine.edges, edgeInput]
    refine ih ?_
    split
    · exact h.edge
    · split
      · exact h.congr rfl rfl rfl
      · exact h

theorem CountersInRange.passMicrosecond (h : CountersInRange p l) : CountersInRange p (passMicrosecond p l) := by
  refine ⟨h.accN, h.accBits, fun m hm hpos => ?_⟩
  rw [passMicrosecond_measCnt, countMeasure, Option.mem_def.mp hm]
  exact Nat.mod_lt _ hpos

theorem CountersInRange.player (h : CountersInRange p l) : CountersInRange p (player p l) := by
  rcases player_cases p l with ⟨-, hnext⟩ | ⟨-, hdone⟩
  · rw [hnext]
    exact h.congr rfl rfl rfl
  · rw [hdone]
    rcases playerDone_cases p { l with planIdx := l.planIdx + 1 } with ⟨-, hend⟩ | ⟨-, hend⟩ <;> rw [hend]
    · exact h.congr rfl rfl rfl
    · exact CountersInRange.edge (h.congr rfl rfl rfl)

theorem CountersInRange.expire (h : CountersInRange p l) : CountersInRange p (expire p l) := by
  unfold Machine.expire
  split
  · exact h.congr rfl rfl rfl
  · exact h
  · exact h.player

theorem CountersInRange.tick (e : Nat) (h : CountersInRange p l) : CountersInRange p (tick p e l) := by
  have hedges := h.passMicrosecond.edges e
  rw [Machine.tick, checkExpiry]
  split
  · exact CountersInRange.expire (hedges.congr rfl rfl rfl)
  · exact hedges

end Counters

/-! ## The two modes (R94 to R96, R101 to R107) -/

section Modes

variable {p : Config.Params} {l : IrLink}

theorem listening_edge (p : Config.Params) (h : ReceptionOn l) : Listening (edge p l) where
  edgeEn := (edge_edgeEn p l).trans h.edgeEn
  tmrPer := (edge_tmrPer p l).trans h.tmrPer
  carrierOn := (edge_carrierOn p l).trans h.carrierOn
  planIdx := (edge_planIdx p l).trans h.planIdx
  edgeLatched := (edge_edgeLatched p l).trans h.edgeLatched
  link := by simp
  tmrCnt := by simp

theorem listening_endTransmission (h : l.edgeLatched = false) : Listening (endTransmission l) :=
  ⟨⟨rfl, rfl, rfl, rfl, h⟩, by simp, by simp⟩

/-- Actioned edges leave a fresh timeout; a µs without one counts it, and its end only changes the link state. -/
theorem listening_tick (p : Config.Params) (e : Nat) (h : Listening l) : Listening (tick p e l) := by
  have hon : ReceptionOn (passMicrosecond p l) := ⟨h.edgeEn, h.tmrPer, h.carrierOn, h.planIdx, h.edgeLatched⟩
  rcases Nat.eq_zero_or_pos e with rfl | he
  · rcases tick_zero_cases p l with ⟨hcnt, hcounts⟩ | ⟨-, hexpires⟩
    · rw [hcounts]
      refine ⟨hon, h.link, ?_⟩
      have hlt := h.tmrCnt
      rw [h.tmrPer] at hcnt
      show (l.tmrCnt + 1).toNat < 45000
      bv_omega
    · rw [hexpires]
      cases hlink : l.link with
      | transmitting => exact absurd hlink h.link
      | receiving =>
        rw [expire_receiving p (l := { passMicrosecond p l with tmrCnt := 0 }) hlink]
        exact ⟨⟨h.edgeEn, h.tmrPer, h.carrierOn, h.planIdx, h.edgeLatched⟩, by simp, by simp⟩
      | clearToSend =>
        rw [expire_clearToSend p (l := { passMicrosecond p l with tmrCnt := 0 }) hlink]
        exact ⟨⟨h.edgeEn, h.tmrPer, h.carrierOn, h.planIdx, h.edgeLatched⟩, h.link, by simp⟩
  · have hpos : l.tmrPer ≠ 0 := by rw [h.tmrPer]; decide
    have hedge := listening_edge p hon
    rw [tick_edges p he h.edgeEn hpos]
    rcases edges_enabled p he hon.edgeEn with hone | hmany
    · rw [hone]
      exact hedge
    · rw [hmany]
      exact ⟨⟨hedge.edgeEn, hedge.tmrPer, hedge.carrierOn, hedge.planIdx, hedge.edgeLatched⟩, hedge.link, hedge.tmrCnt⟩

/-- The end of the plan turns reception on; a remembered edge is forgotten as it is handled (R95, R96). -/
theorem listening_playerDone (h : p.edgeLatchTx = false → l.edgeLatched = false) : Listening (playerDone p l) := by
  rcases playerDone_cases p l with ⟨hno, hend⟩ | ⟨-, hend⟩ <;> rw [hend]
  · refine listening_endTransmission ?_
    cases hlatch : p.edgeLatchTx with
    | false => exact h hlatch
    | true => rwa [hlatch, Bool.true_and] at hno
  · exact listening_edge p ⟨rfl, rfl, rfl, rfl, rfl⟩

/-- While the plan is played, a `TICK` counts in the interval, starts the next one, or ends the transmission. -/
theorem sending_tick (e : Nat) (h : Sending p l) : Sending p (tick p e l) ∨ Listening (tick p e l) := by
  have hlatched (hlatch : p.edgeLatchTx = false) :
      (l.edgeLatched || (p.edgeLatchTx && decide (0 < e))) = false := by rw [h.edgeLatched hlatch, hlatch]; rfl
  by_cases hcnt : l.tmrCnt + 1 = l.tmrPer
  · by_cases hidx : l.planIdx.toNat < 66
    · have hnext : (l.planIdx + 1).toNat = l.planIdx.toNat + 1 :=
        toNat_succ_of_lt (show l.planIdx.toNat < 127 by omega)
      rw [tick_masked_next p e h.link h.edgeEn hcnt hidx, ← hnext]
      exact .inl ⟨⟨h.link, h.edgeEn, rfl, rfl, rfl, rfl, rfl⟩, hnext ▸ Nat.succ_lt_succ hidx,
        (h.playable _ (hnext ▸ Nat.succ_lt_succ hidx)).1, h.playable, hlatched⟩
    · have hlast : l.planIdx = 66 := BitVec.eq_of_toNat_eq (show _ = 66 by have := h.inPlan; omega)
      rw [tick_masked_last p e h.link h.edgeEn hcnt hlast]
      exact .inr (listening_playerDone (l := { atMaskedExpiry p e l with planIdx := 67 }) hlatched)
  · have hlt := h.inInterval
    rw [tick_masked_counts p e h.edgeEn hcnt]
    refine .inl ⟨⟨h.link, h.edgeEn, rfl, rfl, h.tmrPer, h.carrierOn, rfl⟩, h.inPlan, ?_, h.playable, hlatched⟩
    show (l.tmrCnt + 1).toNat < l.tmrPer.toNat
    bv_omega

theorem planPlayable_buildPlan (hw : p.wf) (w : FrameWord) : PlanPlayable (buildPlan p w) := by
  intro i hi
  have hbounds := planEntry_bounds hw w i
  rw [intervalUs_buildPlan hw w hi]
  omega

theorem sending_startTransmission (hw : p.wf) (w : FrameWord) (h : Listening l) :
    Sending p (startTransmission p w l) where
  toPlaying := by simpa using playing_startTransmission p w l
  inPlan := by simp
  inInterval := by
    rw [startTransmission_eq]
    exact (by decide : (0 : BitVec 16).toNat < (9000 : BitVec 16).toNat)
  playable := planPlayable_buildPlan hw w
  edgeLatched := fun _ => h.edgeLatched

end Modes

theorem linkInv_tick {p : Config.Params} (e : Nat) {l : IrLink} (h : LinkInv p l) : LinkInv p (tick p e l) := by
  rw [linkInv_iff] at h ⊢
  obtain ⟨hlistening | hsending, hcounters⟩ := h
  · exact ⟨.inl (listening_tick p e hlistening), hcounters.tick e⟩
  · exact ⟨(sending_tick e hsending).symm, hcounters.tick e⟩

theorem linkInv_startTransmission {p : Config.Params} (hw : p.wf) (w : FrameWord) {l : IrLink} (h : LinkInv p l)
    (hlink : l.link = .clearToSend) : LinkInv p (startTransmission p w l) := by
  rw [linkInv_iff] at h ⊢
  obtain ⟨hlistening | hsending, hcounters⟩ := h
  · exact ⟨.inr (sending_startTransmission hw w hlistening), hcounters.congr rfl rfl rfl⟩
  · rw [hsending.link] at hlink
    cases hlink

/-- The reset values meet the invariant, whatever the ring holds (R44). -/
theorem linkInv_reset (p : Config.Params) (ring : Vector FrameWord Config.ringCap) :
    LinkInv p { IrLink.reset with ring := ring } :=
  (linkInv_iff p _).mpr
    ⟨.inl ⟨⟨rfl, rfl, rfl, rfl, rfl⟩, by simp [IrLink.reset], by simp [IrLink.reset]⟩,
      by simp [IrLink.reset], by simp [IrLink.reset], fun _ _ hpos => hpos⟩

/-- Only the count of packets reads the consumer index, and the count is a remainder. -/
theorem linkInv_tail {p : Config.Params} {l : IrLink} (h : LinkInv p l) (tail : BitVec 8) :
    LinkInv p { l with tail := tail } := by
  obtain ⟨hmask, hrecv, hplay, hcnt, hper, haccN, haccBits, hhead, -, -, hlatch, hmeas⟩ := h
  exact ⟨hmask, hrecv, hplay, hcnt, hper, haccN, haccBits, hhead, tail.isLt, Nat.mod_lt _ (by decide), hlatch, hmeas⟩

theorem linkInv_linkAfter {p : Config.Params} (hw : p.wf) (draw : Nat) {l : IrLink} (h : LinkInv p l) (i : Instr) :
    LinkInv p (linkAfter draw p l i) := by
  cases i with
  | reset => exact linkInv_reset p _
  | tick e => exact linkInv_tick e h
  | send a c =>
    rw [linkAfter]
    split
    next hlink => exact linkInv_startTransmission hw _ h hlink
    next => exact h
  | recv =>
    rw [linkAfter]
    split
    · exact h
    · exact linkInv_tail h _
  | sec | lstat | classify _ | ainit | aserv | aset _ _ | aget _ | tset _ | tget => exact h

/-! ## The scheduler (R40 item 7, R126 to R142) -/

section SchedulerRecord

variable {p : Config.Params} {a b : Scheduler}

/-- What arming leaves meets the invariant where the counter, the table and the cells did. -/
theorem schedulerInv_of_armed
    (hframe : b = { a with
      curDay := b.curDay, almPend := b.almPend, almEn := b.almEn, almTgt := b.almTgt, isSunrise := b.isSunrise })
    (htgt : b.almTgt < 2 ^ p.cntW) (hone : b.almEn = !b.almPend) (hcnt : a.rtcCnt < 2 ^ p.cntW)
    (htable : ∀ i < 7, (readTable a.table i).toNat < 86400) (hcell : ∀ i < 7, (readCell a.cell i).toNat ≤ 1439) :
    SchedulerInv p b := by
  refine ⟨fun hpend => by rw [hone, hpend]; rfl, ?_, htgt, ?_, ?_⟩ <;> rw [hframe] <;> assumption

/-- The boot needs nothing of the volatile fields and the table, and tests the cells itself (R172). -/
theorem schedulerInv_boot (hw : p.wf) (hcnt : a.rtcCnt < 2 ^ p.cntW) (h : boot p (resetScheduler a) = .ok b) :
    SchedulerInv p b := by
  obtain ⟨-, -, hunit⟩ := hw
  obtain ⟨hcell, hinit⟩ := boot_next h
  obtain ⟨hframe, htgt, hone⟩ := initAlarm_next hinit
  refine schedulerInv_of_armed hframe htgt hone hcnt (fun i hi => ?_) hcell
  have hminutes := hcell i hi
  rw [toNat_readTable_loadTable hunit hi hminutes]
  omega

theorem schedulerInv_second (h : SchedulerInv p a) : SchedulerInv p (second p a) := by
  obtain ⟨hone, -, htgt, htable, hcell⟩ := h
  have hwraps : (a.rtcCnt + 1) % 2 ^ p.cntW < 2 ^ p.cntW := Nat.mod_lt _ (Nat.two_pow_pos _)
  rcases second_cases p a with hsecond | hsecond <;> rw [hsecond]
  · exact ⟨hone, hwraps, htgt, htable, hcell⟩
  · exact ⟨fun _ => rfl, hwraps, htgt, htable, hcell⟩

theorem schedulerInv_schedulerAfter (hw : p.wf) (h : SchedulerInv p a) {i : Instr}
    (hi : schedulerAfter p a i = .ok b) : SchedulerInv p b := by
  have ⟨hone, hcnt, htgt, htable, hcell⟩ := h
  cases i with
  | reset => exact schedulerInv_boot hw hcnt hi
  | ainit =>
    obtain ⟨hframe, htgt', hone'⟩ := initAlarm_next hi
    exact schedulerInv_of_armed hframe htgt' hone' hcnt htable hcell
  | aserv =>
    obtain ⟨e, hserve⟩ := exists_event_of_schedulerAfter_aserv hi
    obtain ⟨-, rfl, -⟩ | ⟨-, hframe, htgt', hone'⟩ := serve_next hserve
    · exact h
    · exact schedulerInv_of_armed hframe htgt' hone' hcnt htable hcell
  | sec =>
    obtain rfl := Except.ok.inj hi
    exact schedulerInv_second h
  | aset day secs =>
    obtain ⟨-, -, hunit⟩ := hw
    rw [schedulerAfter] at hi
    split at hi <;> cases hi
    next hrange =>
      have hday : day < 7 := by omega
      have hsecs : secs < 86400 := by omega
      refine ⟨hone, hcnt, htgt, fun j hj => ?_, fun j hj => ?_⟩
      · rw [readTable_aset _ hday hsecs]
        split
        · exact hsecs
        · exact htable j hj
      · rw [hunit, readCell_aset _ hday hsecs]
        split
        · show secs / 60 ≤ 1439
          omega
        · exact hcell j hj
  | aget day =>
    rw [schedulerAfter] at hi
    split at hi <;> cases hi
    exact h
  | tset v =>
    rw [schedulerAfter] at hi
    split at hi <;> cases hi
    next hfits => exact ⟨hone, Nat.lt_of_not_le hfits, htgt, htable, hcell⟩
  | tick _ | send _ _ | recv | lstat | classify _ | tget => cases hi; exact h

end SchedulerRecord

/-! ## The block -/

theorem inv_exec {i : Instr} {s t : State} (h : Inv s) (hexec : exec i s = .next t) : Inv t := by
  obtain ⟨hw, hlink, halarm⟩ := h
  rw [Inv, exec_params hexec]
  refine ⟨hw, ?ir, ?alarm⟩
  case ir =>
    obtain hir | ⟨-, hir⟩ := exec_ir_cases hexec <;> rw [hir]
    · exact linkInv_linkAfter hw s.draws hlink i
    · exact hlink
  case alarm =>
    obtain ⟨hok, -⟩ | ⟨info, -, hsame, -⟩ := exec_alarm_cases hexec
    · exact schedulerInv_schedulerAfter hw halarm hok
    · rw [hsame]
      exact halarm

end Sys2Proof.Machine

namespace Sys2Proof.Proofs

open Sys2Proof.Machine

/-- Settles O11: a step writes the inputs and the fault record, which the invariant does not read, and runs at most one
operation, which keeps the invariant of each half. -/
theorem stepKeepsInvariant : Obligations.StepKeepsInvariant := by
  intro s t hinv hstep
  obtain rfl | ⟨a, d, rfl⟩ | ⟨a, i, hexec⟩ := step_next hstep
  · exact hinv
  · exact hinv
  · exact inv_exec (s := afterTurn s a (held i s)) hinv hexec

/-- Settles O12: the reset values of the IR link, and a scheduler whose table and cells are empty. -/
theorem resetStateMeetsInvariant : Obligations.ResetStateMeetsInvariant :=
  ⟨by decide, linkInv_reset _ IrLink.reset.ring, by decide⟩

/-- Settles O13: a `RESET` that records no fault has booted, and both records are what the boot makes them. -/
theorem everyResetEstablishesInvariant : Obligations.EveryResetEstablishesInvariant := by
  intro s t hw hcnt hexec hfault
  obtain ⟨a, hboot, rfl⟩ | ⟨info, -, rfl⟩ := exec_reset_next hexec
  · exact ⟨hw, linkInv_reset _ _, schedulerInv_boot hw hcnt hboot⟩
  · cases hfault

end Sys2Proof.Proofs

/-!
PROOFS. Who writes the edge enable, the accumulator and the measurement counter (`spec/42_ir_receive.md` rules R101, R112,
R116; `spec/60_exceptions.md` rule R156).
-/

namespace Sys2Proof.Machine

/-! ## The enable of the edge interrupt (R95, R156) -/

theorem edges_edgeEn (p : Config.Params) {e : Nat} (he : 0 < e) {l : IrLink} (hen : l.edgeEn = true) :
    (edges p e l).edgeEn = true := by
  rcases edges_enabled p he hen with h | h <;> simp [h, hen]

/-- An expiry enables edges only where the player ends the plan. -/
theorem expire_edgeEn (p : Config.Params) (l : IrLink) :
    (expire p l).edgeEn = l.edgeEn ∨
      (l.link = .transmitting ∧ 67 ≤ (l.planIdx + 1).toNat ∧ (expire p l).edgeEn = true) := by
  cases hlink : l.link with
  | receiving => exact .inl (by rw [expire_receiving p hlink])
  | clearToSend => exact .inl (by rw [expire_clearToSend p hlink])
  | transmitting =>
    rw [expire_transmitting p hlink]
    rcases player_cases p l with ⟨-, hnext⟩ | ⟨hlast, hdone⟩
    · exact .inl (by rw [hnext, playInterval_edgeEn])
    · exact .inr ⟨rfl, hlast, by rw [hdone]; exact (transmissionOver_playerDone p _).edgeEn⟩

/-- All that a `TICK` can do to the enable: nothing, or to set it at the end of the plan. -/
theorem tick_edgeEn (p : Config.Params) (e : Nat) (l : IrLink) :
    (tick p e l).edgeEn = l.edgeEn ∨
      (l.link = .transmitting ∧ 67 ≤ (l.planIdx + 1).toNat ∧ (tick p e l).edgeEn = true) := by
  by_cases hno : e = 0 ∨ l.edgeEn = false
  · rw [tick_no_edge p hno]
    rcases tick_zero_cases p { l with edgeLatched := l.edgeLatched || (p.edgeLatchTx && decide (0 < e)) } with
      ⟨-, hcounts⟩ | ⟨-, hexpires⟩
    · exact .inl (by rw [hcounts, passMicrosecond_edgeEn])
    · rw [hexpires]
      exact expire_edgeEn p _
  · obtain ⟨he, hen⟩ := not_or.mp hno
    have hen : l.edgeEn = true := by simpa using hen
    obtain ⟨c, k, htick⟩ := tick_actioned p (Nat.pos_of_ne_zero he) hen
    rw [htick, hen]
    exact .inl (edges_edgeEn p (Nat.pos_of_ne_zero he) (l := passMicrosecond p l) hen)

/-! ## The counters in a µs without an edge (R112, R116) -/

/-- An expiry that handles no remembered edge writes neither the measurement counter nor the accumulator. -/
theorem expire_counters (p : Config.Params) {l : IrLink} (h : (p.edgeLatchTx && l.edgeLatched) = false) :
    (expire p l).measCnt = l.measCnt ∧ (expire p l).accN = l.accN ∧ (expire p l).accBits = l.accBits := by
  cases hlink : l.link with
  | receiving => rw [expire_receiving p hlink]; exact ⟨rfl, rfl, rfl⟩
  | clearToSend => rw [expire_clearToSend p hlink]; exact ⟨rfl, rfl, rfl⟩
  | transmitting =>
    rw [expire_transmitting p hlink]
    rcases player_cases p l with ⟨-, hnext⟩ | ⟨-, hdone⟩
    · rw [hnext]
      exact ⟨rfl, rfl, rfl⟩
    · rcases playerDone_cases p { l with planIdx := l.planIdx + 1 } with ⟨-, hend⟩ | ⟨hlatched, -⟩
      · rw [hdone, hend]
        exact ⟨rfl, rfl, rfl⟩
      · cases h.symm.trans hlatched

theorem tick_zero_counters (p : Config.Params) {l : IrLink} (h : (p.edgeLatchTx && l.edgeLatched) = false) :
    (tick p 0 l).measCnt = countMeasure p l.measCnt ∧ (tick p 0 l).accN = l.accN ∧ (tick p 0 l).accBits = l.accBits := by
  rcases tick_zero_cases p l with ⟨-, hcounts⟩ | ⟨-, hexpires⟩
  · rw [hcounts]
    exact ⟨rfl, rfl, rfl⟩
  · rw [hexpires]
    exact expire_counters p (l := { passMicrosecond p l with tmrCnt := 0 }) h

theorem ticks_measCnt (n : Nat) {p : Config.Params} (h : p.edgeLatchTx = false) (l : IrLink) :
    (ticks p (List.replicate n 0) l).measCnt = (countMeasure p)^[n] l.measCnt := by
  induction n with
  | zero => rfl
  | succ n ih =>
    have hno (m : IrLink) : (p.edgeLatchTx && m.edgeLatched) = false := by rw [h, Bool.false_and]
    obtain ⟨hmeas, -⟩ := tick_zero_counters p (hno (ticks p (List.replicate n 0) l))
    rw [List.replicate_succ', ticks_concat, hmeas, ih, Function.iterate_succ_apply']

/-- `n` counts modulo `MEAS_WRAP`, from a count below it (R116). -/
theorem countMeasure_iterate_of_wrap {p : Config.Params} {m : Nat} (hwrap : p.measWrap = some m) (n : Nat) {x : Nat}
    (hx : x < m) : (countMeasure p)^[n] x = (x + n) % m := by
  induction n with
  | zero => exact (Nat.mod_eq_of_lt hx).symm
  | succ n ih =>
    rw [Function.iterate_succ_apply', ih, countMeasure, hwrap]
    exact Nat.mod_add_mod ..

/-! ## The accumulator (R112) -/

/-- The other operations write no field of the accumulator. -/
theorem linkAfter_accumulator {i : Instr} (htick : ∀ e, i ≠ .tick e) (hreset : i ≠ .reset) (draw : Nat)
    (p : Config.Params) (l : IrLink) :
    (linkAfter draw p l i).accN = l.accN ∧ (linkAfter draw p l i).accBits = l.accBits := by
  cases i with
  | reset => exact absurd rfl hreset
  | tick e => exact absurd rfl (htick e)
  | send _ _ | recv => rw [linkAfter]; split <;> exact ⟨rfl, rfl⟩
  | sec | lstat | classify _ | ainit | aserv | aset _ _ | aget _ | tset _ | tget => exact ⟨rfl, rfl⟩

/-- An interval above every window is noise (R82). -/
theorem classifySymbol_of_long (p : Config.Params) {dt : Nat} (h : 45000 ≤ dt) : classifySymbol p dt = .noise := by
  have houtside {c : Nat} (hc : c ≤ 13500) : ¬ inWindow p c dt = true := by
    cases hclosed : p.tolClosed with
    | true => rw [inWindow_of_closed hclosed]; omega
    | false => rw [inWindow_of_open hclosed]; omega
  rw [classifySymbol, if_neg (by omega), if_neg (houtside (by decide)), if_neg (houtside (by decide)),
    if_neg (houtside (by decide))]

/-- An edge after a silence as long as the quiet-channel timeout clears the accumulator (R111, R112). -/
theorem tick_one_of_long (p : Config.Params) {l : IrLink} (hen : l.edgeEn = true)
    (hlong : 45000 ≤ countMeasure p l.measCnt) : (tick p 1 l).accN = 0 ∧ (tick p 1 l).accBits = 0 := by
  have hnoise : classifySymbol p (passMicrosecond p l).measCnt = .noise := classifySymbol_of_long p hlong
  obtain ⟨c, k, htick⟩ := tick_actioned p Nat.one_pos hen
  rw [htick, edges_one p (l := passMicrosecond p l) hen, edge_of_no_bit p (.inr (.inr hnoise))]
  exact ⟨rfl, rfl⟩

end Sys2Proof.Machine

namespace Sys2Proof.Proofs

open Sys2Proof.Machine

/-- Settles O22: of the operations that write the IR Link record, `RECV` writes the consumer index alone, and a `TICK`
writes the enable only at the end of the plan. -/
theorem edgeEnableWriters : Obligations.EdgeEnableWriters := by
  intro i s t hexec hne
  cases i with
  | reset => exact .inr (.inr rfl)
  | tick e =>
    have hir : t.ir = tick s.params e s.ir := exec_ir_eq hexec (by simp)
    rw [hir] at hne ⊢
    obtain ⟨hlink, hlast, hen⟩ := (tick_edgeEn s.params e s.ir).resolve_left hne
    exact .inr (.inl ⟨e, rfl, hlink, hlast, hen⟩)
  | send a c =>
    obtain ⟨-, rfl⟩ | ⟨-, rfl⟩ := exec_send_next hexec
    · exact .inl ⟨a, c, rfl, rfl⟩
    · exact absurd rfl hne
  | recv =>
    refine absurd ?_ hne
    obtain ⟨-, ht⟩ | ⟨-, rfl⟩ := exec_recv_next hexec
    · rw [ht]
    · rfl
  | _ => exact absurd (by rw [exec_ir hexec (by simp) (by simp) (by simp) (by simp)]) hne

/-- Settles O34: `SEND` and `RECV` write other fields of the record, a quiet µs only counts, and an interval of at least
45000 µs is noise. -/
theorem accumulatorWriters : Obligations.AccumulatorWriters := by
  refine ⟨fun i s t hexec htick hreset => ?others, fun s t hexec hno => ?quiet, fun s hfault hwrap hen hlong => ?long⟩
  case others =>
    rw [exec_ir_eq hexec hreset]
    exact linkAfter_accumulator htick hreset ..
  case quiet =>
    rw [exec_ir_eq hexec (by simp)]
    exact (tick_zero_counters s.params hno).2
  case long =>
    have hmeas : countMeasure s.params s.ir.measCnt = s.ir.measCnt + 1 := by rw [countMeasure, hwrap]
    exact ⟨_, exec_tick hfault 1, tick_one_of_long s.params hen (hlong.trans_eq hmeas.symm)⟩

/-- Settles O32: with no edge to handle, each µs counts once, whatever the timer and the player do. -/
theorem measureWraps : Obligations.MeasureWraps := by
  intro s n hfault hlatch hbelow
  obtain ⟨t, hrun, hir⟩ := runOps_ticks (List.replicate n 0) hfault
  rw [List.map_replicate] at hrun
  refine ⟨t, hrun, ?_⟩
  rw [hir, ticks_measCnt n hlatch]
  cases hwrap : s.params.measWrap with
  | none => exact countMeasure_iterate_of_lt (by simp [hwrap])
  | some m => exact countMeasure_iterate_of_wrap hwrap n (hbelow m hwrap)

/-- Settles O24: no edge is handled and the timer stays below its period, so that only the two counters are written. -/
theorem quietTickCounts : Obligations.QuietTickCounts := by
  intro s hfault hcnt
  refine ⟨_, exec_tick hfault 0, ?_⟩
  rw [tick_zero s.params hcnt]
  rfl

end Sys2Proof.Proofs

/-!
PROOFS. The alarm over time: an armed alarm second by second, and the week of a scheduler that is serviced before every
second (`spec/44_alarm_scheduler.md` rules R126, R130, R136 to R140).
-/

namespace Sys2Proof.Machine

/-! ## An armed alarm, second by second (R126) -/

section Seconds

variable {p : Config.Params} {a : Scheduler}

/-- A second whose count is not the target. -/
theorem second_of_ne (hfits : a.rtcCnt + 1 < 2 ^ p.cntW) (hne : a.rtcCnt + 1 ≠ a.almTgt) :
    second p a = { a with rtcCnt := a.rtcCnt + 1 } := by
  have hcount : (a.rtcCnt + 1) % 2 ^ p.cntW = a.rtcCnt + 1 := Nat.mod_eq_of_lt hfits
  rw [second_of_other (fun _ => hcount.trans_ne hne), hcount]

/-- The second whose count is the target of the armed alarm. -/
theorem second_of_eq (hen : a.almEn = true) (hfits : a.rtcCnt + 1 < 2 ^ p.cntW) (heq : a.rtcCnt + 1 = a.almTgt) :
    second p a = { a with rtcCnt := a.rtcCnt + 1, almPend := true, almEn := false } := by
  have hcount : (a.rtcCnt + 1) % 2 ^ p.cntW = a.rtcCnt + 1 := Nat.mod_eq_of_lt hfits
  rw [second_of_match hen (hcount.trans heq), hcount]

theorem second_iterate_of_early (n : Nat) (hearly : a.rtcCnt + n < a.almTgt) (hfits : a.rtcCnt + n < 2 ^ p.cntW) :
    (second p)^[n] a = { a with rtcCnt := a.rtcCnt + n } := by
  induction n with
  | zero => rfl
  | succ n ih =>
    rw [Function.iterate_succ_apply', ih (by omega) (by omega),
      second_of_ne (a := { a with rtcCnt := a.rtcCnt + n }) hfits hearly.ne]
    rfl

/-- Early up to the second before the target, the match, and late from then on. -/
theorem second_iterate_of_reached {n : Nat} (hen : a.almEn = true) (hahead : a.rtcCnt < a.almTgt)
    (hreached : a.almTgt ≤ a.rtcCnt + n) (hfits : a.rtcCnt + n < 2 ^ p.cntW) :
    (second p)^[n] a = { a with rtcCnt := a.rtcCnt + n, almPend := true, almEn := false } := by
  obtain ⟨k, hk⟩ : ∃ k, a.rtcCnt + k + 1 = a.almTgt := ⟨a.almTgt - a.rtcCnt - 1, by omega⟩
  obtain ⟨m, rfl⟩ : ∃ m, n = m + (k + 1) := ⟨n - (k + 1), by omega⟩
  have hmatch : (second p)^[k + 1] a = { a with rtcCnt := a.rtcCnt + k + 1, almPend := true, almEn := false } := by
    rw [Function.iterate_succ_apply', second_iterate_of_early k (by omega) (by omega)]
    exact second_of_eq (a := { a with rtcCnt := a.rtcCnt + k }) hen (by simp only; omega) hk
  rw [Function.iterate_add_apply, hmatch, second_iterate_of_late m hk.ge (by simp only; omega)]
  simp only [Scheduler.mk.injEq, and_true]
  omega

end Seconds

/-! ## The record of a scheduler that has just been serviced (R130, R136 to R138) -/

/-- The entry of the weekly table for day `day`. -/
def entryOn (a : Scheduler) (day : Nat) : Nat := (readTable a.table (day % 7)).toNat

/-- What is armed after the service at counter value `x`: the day's alarm if it is ahead, else the next midnight. -/
def targetAfter (a : Scheduler) (x : Nat) : Nat :=
  if x % 86400 < entryOn a (x / 86400) then x / 86400 * 86400 + entryOn a (x / 86400) else (x / 86400 + 1) * 86400

/-- The record after the service at counter value `x`, with the table and the cells of `a`. -/
def servedAt (a : Scheduler) (x : Nat) : Scheduler :=
  { a with
    rtcCnt := x
    almTgt := targetAfter a x
    almEn := true
    almPend := false
    isSunrise := decide (x % 86400 < entryOn a (x / 86400))
    curDay := BitVec.ofNat 32 (x / 86400) }

theorem eventAt_eq (a : Scheduler) (c : Nat) :
    eventAt a c =
      if c % 86400 = 0 then .rollover else if c % 86400 = entryOn a (c / 86400) then .sunrise else .none := rfl

section Week

variable {p : Config.Params} {a : Scheduler} {x : Nat}

/-- Arming the current second, where that fires at once. -/
theorem arm_of_eq {b : Scheduler} {target : Nat} (hfits : target < 2 ^ p.cntW) (hmatch : p.alarmMatchOnArm = true)
    (heq : b.rtcCnt = target) : arm p target b = .ok { b with almTgt := target, almPend := true, almEn := false } := by
  obtain ⟨-, hfires, -⟩ := Proofs.armSetsTheOneAlarm p target b
  exact hfires hfits hmatch heq

/-- Arming a target that is not the current second. -/
theorem arm_of_ne {b : Scheduler} {target : Nat} (hfits : target < 2 ^ p.cntW) (hne : b.rtcCnt ≠ target) :
    arm p target b = .ok { b with almTgt := target, almEn := true } := by
  obtain ⟨-, -, harmed⟩ := Proofs.armSetsTheOneAlarm p target b
  exact harmed hfits (.inr hne)

theorem entryOn_lt (htable : ∀ i < 7, (readTable a.table i).toNat < 86400) (day : Nat) : entryOn a day < 86400 :=
  htable _ (Nat.mod_lt _ (by decide))

theorem toNat_day (hwidth : p.cntW ≤ 32) (hx : x < 2 ^ p.cntW) : (BitVec.ofNat 32 (x / 86400)).toNat = x / 86400 := by
  have hle : 2 ^ p.cntW ≤ 2 ^ 32 := Nat.pow_le_pow_right (by decide) hwidth
  rw [BitVec.toNat_ofNat]
  omega

/-- A sunrise served at `x` arms the next midnight, whatever the spent target was (R137). -/
theorem serve_due_sunrise (target : Nat) (hwidth : p.cntW ≤ 32) (hroom : x + 86400 < 2 ^ p.cntW)
    (hnow : x % 86400 = entryOn a (x / 86400)) :
    serve p { servedAt a x with almTgt := target, almEn := false, almPend := true, isSunrise := true } =
      .ok (.sunrise, servedAt a x) := by
  have hday := toNat_day (x := x) hwidth (by omega)
  have hahead : ¬ x % 86400 < entryOn a (x / 86400) := hnow.not_lt
  rw [serve_sunrise p rfl rfl]
  simp only [servedAt, hday]
  rw [arm_of_ne (show (x / 86400 + 1) * 86400 < _ by omega) (show x ≠ (x / 86400 + 1) * 86400 by omega)]
  simp [Except.map, targetAfter, hahead]

/-- The rollover served at the midnight after `x` arms the alarm of the day that begins, or its end (R138). -/
theorem serve_due_rollover (hwidth : p.cntW ≤ 32) (htable : ∀ i < 7, (readTable a.table i).toNat < 86400)
    (hroom : x + 1 + 86400 < 2 ^ p.cntW) (hnow : (x + 1) % 86400 = 0) :
    serve p { servedAt a x with rtcCnt := x + 1, almEn := false, almPend := true } =
      .ok (.rollover, servedAt a (x + 1)) := by
  have hspent : ¬ x % 86400 < entryOn a (x / 86400) := by have := entryOn_lt htable (x / 86400); omega
  have hnext : BitVec.ofNat 32 (x / 86400) + 1 = BitVec.ofNat 32 ((x + 1) / 86400) := by
    rw [show (x + 1) / 86400 = x / 86400 + 1 by omega, BitVec.ofNat_add]
    rfl
  have hday := toNat_day (x := x + 1) hwidth (by omega)
  have htoday := entryOn_lt htable ((x + 1) / 86400)
  have htarget : targetAfter a (x + 1) < 2 ^ p.cntW ∧ x + 1 ≠ targetAfter a (x + 1) := by
    rw [targetAfter]
    split <;> omega
  have harm := arm_of_ne (b := { servedAt a (x + 1) with almEn := false, almTgt := targetAfter a x })
    htarget.1 htarget.2
  have hserve : serve p { servedAt a x with rtcCnt := x + 1, almEn := false, almPend := true } =
      (arm p (targetAfter a (x + 1)) { servedAt a (x + 1) with almEn := false, almTgt := targetAfter a x }).map
        fun b => (.rollover, b) := by
    rw [serve_rollover p rfl (decide_eq_false hspent)]
    simp only [servedAt, targetAfter, hnext, hday, hnow, Nat.pos_iff_ne_zero]
    rfl
  rw [hserve, harm]
  rfl

/-- A second that neither reaches the day's alarm nor ends the day leaves the service nothing to do. -/
theorem second_servedAt_quiet (hroom : x + 1 < 2 ^ p.cntW) (hday : (x + 1) % 86400 ≠ 0)
    (hentry : (x + 1) % 86400 ≠ entryOn a ((x + 1) / 86400)) : second p (servedAt a x) = servedAt a (x + 1) := by
  have hsame : (x + 1) / 86400 = x / 86400 := by omega
  rw [hsame] at hentry
  have hahead : (x + 1) % 86400 < entryOn a (x / 86400) ↔ x % 86400 < entryOn a (x / 86400) := by omega
  have htarget : x + 1 ≠ targetAfter a x := by
    rw [targetAfter]
    split <;> omega
  rw [second_of_ne (a := servedAt a x) hroom htarget]
  simp [servedAt, targetAfter, hsame, hahead]

/-- A second and the service after it, by what is due at the new second. -/
theorem serve_second_servedAt (hwidth : p.cntW ≤ 32) (htable : ∀ i < 7, (readTable a.table i).toNat < 86400)
    (hroom : x + 1 + 86400 < 2 ^ p.cntW) :
    serve p (second p (servedAt a x)) = .ok (eventAt a (x + 1), servedAt a (x + 1)) := by
  have hfits : x + 1 < 2 ^ p.cntW := by omega
  have hentry := entryOn_lt htable (x / 86400)
  rw [eventAt_eq]
  by_cases hmidnight : (x + 1) % 86400 = 0
  · have htarget : x + 1 = targetAfter a x := by rw [targetAfter, if_neg (by omega)]; omega
    rw [second_of_eq (a := servedAt a x) rfl hfits htarget, if_pos hmidnight]
    exact serve_due_rollover hwidth htable hroom hmidnight
  · have hsame : (x + 1) / 86400 = x / 86400 := by omega
    by_cases hsunrise : (x + 1) % 86400 = entryOn a ((x + 1) / 86400)
    · have hahead : x % 86400 < entryOn a (x / 86400) := by rw [← hsame]; omega
      have htarget : x + 1 = targetAfter a x := by rw [targetAfter, if_pos hahead, ← hsame]; omega
      rw [second_of_eq (a := servedAt a x) rfl hfits htarget, if_neg hmidnight, if_pos hsunrise]
      have hserve := serve_due_sunrise (targetAfter a x) hwidth hroom hsunrise
      simpa [servedAt, hsame, hahead] using hserve
    · rw [second_servedAt_quiet hfits hmidnight hsunrise, if_neg hmidnight, if_neg hsunrise]
      exact serve_of_idle p rfl

/-- `AINIT` and the service after it: an alarm of this very second has fired, and a midnight is not reported (R130, R133). -/
theorem exists_initAlarm_served (hwidth : p.cntW ≤ 32) (hmatch : p.alarmMatchOnArm = true)
    (htable : ∀ i < 7, (readTable a.table i).toNat < 86400) (hroom : a.rtcCnt + 86400 < 2 ^ p.cntW) :
    ∃ b, initAlarm p a = .ok b ∧
      serve p b = .ok (if a.rtcCnt % 86400 = 0 then .none else eventAt a a.rtcCnt, servedAt a a.rtcCnt) := by
  have hentry := entryOn_lt htable (a.rtcCnt / 86400)
  have hinit := initAlarm_of p (a := a) (v := entryOn a (a.rtcCnt / 86400)) rfl rfl
  by_cases hnow : a.rtcCnt % 86400 = entryOn a (a.rtcCnt / 86400) ∧ a.rtcCnt % 86400 ≠ 0
  · obtain ⟨hsunrise, hpos⟩ := hnow
    have htarget : a.rtcCnt / 86400 * 86400 + entryOn a (a.rtcCnt / 86400) = a.rtcCnt := by omega
    have htoday : entryOn a (a.rtcCnt / 86400) ≠ 0 ∧ a.rtcCnt ≤ a.rtcCnt := ⟨by omega, le_rfl⟩
    simp only [htarget, if_pos htoday, decide_eq_true htoday] at hinit
    refine ⟨_, hinit.trans (arm_of_eq (by omega) hmatch rfl), ?_⟩
    rw [if_neg hpos, eventAt_eq, if_neg hpos, if_pos hsunrise]
    exact serve_due_sunrise a.rtcCnt hwidth hroom hsunrise
  · have htoday : (entryOn a (a.rtcCnt / 86400) ≠ 0 ∧
        a.rtcCnt ≤ a.rtcCnt / 86400 * 86400 + entryOn a (a.rtcCnt / 86400)) ↔
        a.rtcCnt % 86400 < entryOn a (a.rtcCnt / 86400) := by omega
    have htarget : targetAfter a a.rtcCnt < 2 ^ p.cntW ∧ a.rtcCnt ≠ targetAfter a a.rtcCnt := by
      rw [targetAfter]
      split <;> omega
    simp only [htoday] at hinit
    refine ⟨servedAt a a.rtcCnt, hinit.trans (arm_of_ne htarget.1 htarget.2), ?_⟩
    rw [serve_of_idle p rfl]
    split
    next => rfl
    next hpos => rw [eventAt_eq, if_neg hpos, if_neg (by omega)]

end Week

/-! ## A service before every second (R140) -/

/-- One service and one second. -/
theorem watchAlarm_succ (n : Nat) {s : State} {e : AlarmEvent} {b : Scheduler} (h0 : s.fault = none)
    (hserve : serve s.params s.alarm = .ok (e, b)) :
    watchAlarm (n + 1) s =
      (watchAlarm n { s with alarm := second s.params b, out := ⟨none, .none⟩ }).map (e :: ·) := by
  have hsec := exec_sec (s := { s with alarm := b, out := ⟨some e.code.toNat, e⟩ }) h0
  rw [watchAlarm, exec_aserv_ok h0 hserve]
  simp only [hsec]

/-- From a service at counter value `x` on, service by service. -/
theorem watchAlarm_of_served (n : Nat) {s : State} {a : Scheduler} {x : Nat} {e : AlarmEvent} (h0 : s.fault = none)
    (hwidth : s.params.cntW ≤ 32) (htable : ∀ i < 7, (readTable a.table i).toNat < 86400)
    (hroom : x + n + 86400 < 2 ^ s.params.cntW) (hserve : serve s.params s.alarm = .ok (e, servedAt a x)) :
    watchAlarm (n + 1) s = some (e :: (List.range n).map fun j => eventAt a (x + (j + 1))) := by
  induction n generalizing s x e with
  | zero => rw [watchAlarm_succ 0 h0 hserve]; rfl
  | succ n ih =>
    have hnext := serve_second_servedAt (x := x) hwidth htable (by omega)
    have hrest := ih (s := { s with alarm := second s.params (servedAt a x), out := ⟨none, .none⟩ }) h0 hwidth
      (by simp only; omega) hnext
    rw [watchAlarm_succ (n + 1) h0 hserve, hrest, List.range_succ_eq_map, List.map_cons, List.map_map]
    refine congrArg (fun l => some (e :: _ :: l)) (List.map_congr_left fun j _ => ?_)
    rw [Nat.add_assoc, Nat.add_comm 1]
    rfl

end Sys2Proof.Machine

namespace Sys2Proof.Proofs

open Sys2Proof.Machine

/-- Settles O51: a service leaves the record determined by the table and the counter alone, and the second after it makes
due exactly the event of the new counter value. -/
theorem servicedSchedulerFollowsTheWeek : Obligations.ServicedSchedulerFollowsTheWeek := by
  intro s t n hfault hmatch htable hroom hwidth hexec
  obtain ⟨b, hinit, hserve⟩ := exists_initAlarm_served hwidth hmatch htable (by omega)
  rw [exec_ainit_ok hfault hinit] at hexec
  obtain rfl := Host.Outcome.next.inj hexec
  cases n with
  | zero => rfl
  | succ n =>
    have hwatch := watchAlarm_of_served (s := { s with alarm := b, out := ⟨none, .none⟩ }) n hfault hwidth htable
      (by simp only; omega) hserve
    rw [hwatch, List.range_succ_eq_map, List.map_cons, List.map_map]
    simp [Function.comp_def]

/-- Settles O50: the seconds before the target only count, the one at it matches, and those after it are late. -/
theorem armedAlarmFiresAtTarget : Obligations.ArmedAlarmFiresAtTarget := by
  intro s n hfault hen hahead hfits
  obtain ⟨out, hrun⟩ := runOps_waits n hfault
  by_cases hearly : s.alarm.rtcCnt + n < s.alarm.almTgt
  · rw [second_iterate_of_early n hearly hfits] at hrun
    exact ⟨_, hrun, rfl, fun _ => ⟨rfl, hen⟩, fun hreached => absurd hearly (Nat.not_lt.mpr hreached)⟩
  · rw [second_iterate_of_reached hen hahead (Nat.le_of_not_lt hearly) hfits] at hrun
    exact ⟨_, hrun, rfl, fun h => absurd h hearly, fun _ => ⟨rfl, rfl⟩⟩

/-- Settles O41: `ASERV` tests the pending flag first, and `NONE` has code 0. -/
theorem aservWithNothingPending : Obligations.AservWithNothingPending :=
  fun s hfault hidle => exec_aserv_ok hfault (serve_of_idle s.params hidle)

end Sys2Proof.Proofs
